-- ==== Sys2Proof/Word.lean ====
section
/-! DEFINITION. The word type of CORE: every register, memory cell, operand byte and ALU result is an
unsigned 8-bit value (spec 00_scope.md R5, R19). -/

namespace Sys2Proof

/-- An 8-bit datum (R5). Its `toNat` is the unsigned number the spec's arithmetic is about (R19). -/
abbrev Byte := BitVec 8

end Sys2Proof
end

