-- ==== Sys2Proof/Config.lean ====
section
/-! DEFINITION. The names the configuration of CORE is written with: the mnemonics that the opcode map is
a map of (00_scope.md R13), the instruction formats (30_encoding.md R80), and the three parameters that
have two settings each (R14, R15, R16), gathered in `Params`.
The numbers of the configuration (MEM_SIZE, SP_INDEX, SP_RESET, ...) stand in Machine/Parameters.lean, the opcode
bytes in Decode.lean. -/

namespace Sys2Proof

/-- The 21 instructions of the opcode map (30_encoding.md R85), in the table's order. -/
inductive Mnemonic where
  | hlt | ret | push | pop | prn | call | jmp | jeq | jne | not
  | ldi | add | sub | mul | mod | cmp | and | or | xor | shl | shr
deriving DecidableEq, Repr

/-- The three instruction formats (30_encoding.md R80): opcode alone, opcode and `a`, opcode and `a` and `b`. -/
inductive Format where
  | n | a | ab
deriving DecidableEq, Repr

/-- `ALU_DECODE_SET` (00_scope.md R14): which ALU operations the control unit decodes. -/
inductive AluDecodeSet where
  | core | extended
deriving DecidableEq, Repr

/-- `MOD_SEMANTICS` (00_scope.md R15): what the ALU's MOD does. -/
inductive ModSemantics where
  | noop | modulo
deriving DecidableEq, Repr

/-- `REG_RESET_POLICY` (00_scope.md R16, 10_state.md R33): what R0 to R6 hold after reset. -/
inductive RegResetPolicy where
  | unwritten | zero
deriving DecidableEq, Repr

/-- The parameters with two settings each. They are fixed for a machine: no step and no reset changes them. -/
structure Params where
  aluDecodeSet : AluDecodeSet
  modSemantics : ModSemantics
  regResetPolicy : RegResetPolicy
deriving DecidableEq, Repr

end Sys2Proof
end

