-- ==== Sys2Proof/Syntax.lean ====
section
/-! DEFINITION. The instructions of CORE, one constructor per row of spec/opcode_table.json (30_encoding.md R85).
An operand is the whole byte after the opcode (R82, R83): a register index of 8 or more is a form the encoding
admits, and the instruction faults on it when it uses it. -/

namespace Sys2Proof

/-- One instruction. `a` and `b` are register index bytes; `imm` is LDI's immediate byte (R81, R90). -/
inductive Instr where
  | hlt
  | ret
  | push (a : Byte)
  | pop (a : Byte)
  | prn (a : Byte)
  | call (a : Byte)
  | jmp (a : Byte)
  | jeq (a : Byte)
  | jne (a : Byte)
  | not (a : Byte)
  | ldi (a : Byte) (imm : Byte)
  | add (a : Byte) (b : Byte)
  | sub (a : Byte) (b : Byte)
  | mul (a : Byte) (b : Byte)
  | mod (a : Byte) (b : Byte)
  | cmp (a : Byte) (b : Byte)
  | and (a : Byte) (b : Byte)
  | or (a : Byte) (b : Byte)
  | xor (a : Byte) (b : Byte)
  | shl (a : Byte) (b : Byte)
  | shr (a : Byte) (b : Byte)
deriving DecidableEq, Repr

end Sys2Proof
end

