-- ==== Sys2Proof/Decode.lean ====
section
/-! DEFINITION. Decoding and encoding (30_encoding.md R80 to R89), written for any opcode map and then fixed to
the LS-8 values of R85 (decision D1, log entry 4). Decoding is total, looks at the opcode byte only, and rejects by name
(`Decoded.unknown`). -/

namespace Sys2Proof

/-- An `OPCODE_MAP` (00_scope.md R13): the opcode byte of each instruction. -/
abbrev OpcodeMap := Mnemonic → Byte

/-- The opcode map of this spec (R85): the LS-8 values, decision D1. -/
def opcodeMap : OpcodeMap
  | .hlt  => 0b00000001
  | .ret  => 0b00010001
  | .push => 0b01000101
  | .pop  => 0b01000110
  | .prn  => 0b01000111
  | .call => 0b01010000
  | .jmp  => 0b01010100
  | .jeq  => 0b01010101
  | .jne  => 0b01010110
  | .not  => 0b01101001
  | .ldi  => 0b10000010
  | .add  => 0b10100000
  | .sub  => 0b10100001
  | .mul  => 0b10100010
  | .mod  => 0b10100100
  | .cmp  => 0b10100111
  | .and  => 0b10101000
  | .or   => 0b10101010
  | .xor  => 0b10101011
  | .shl  => 0b10101100
  | .shr  => 0b10101101

/-- The format of each instruction (R81). -/
def Mnemonic.format : Mnemonic → Format
  | .hlt | .ret => .n
  | .push | .pop | .prn | .call | .jmp | .jeq | .jne | .not => .a
  | .ldi | .add | .sub | .mul | .mod | .cmp | .and | .or | .xor | .shl | .shr => .ab

/-- The length in bytes of a format (R80). -/
def Format.length : Format → Nat
  | .n => 1
  | .a => 2
  | .ab => 3

/-- The length in bytes of an instruction (R81, R89). -/
def Mnemonic.length (m : Mnemonic) : Nat := m.format.length

/-- Which instructions a setting of `ALU_DECODE_SET` decodes (R14, the column "set" of R85). -/
def decodedUnder (set : AluDecodeSet) : Mnemonic → Bool
  | .hlt | .ret | .push | .pop | .prn | .call | .jmp | .jeq | .jne | .ldi | .add | .mul | .cmp => true
  | .sub | .mod | .and | .or | .xor | .not | .shl | .shr => set == .extended

/-- Every mnemonic, in the table's order. -/
def Mnemonic.all : List Mnemonic :=
  [.hlt, .ret, .push, .pop, .prn, .call, .jmp, .jeq, .jne, .not, .ldi] ++
    [.add, .sub, .mul, .mod, .cmp, .and, .or, .xor, .shl, .shr]

/-- The mnemonic of an instruction. -/
def Instr.mnemonic : Instr → Mnemonic
  | .hlt => .hlt
  | .ret => .ret
  | .push _ => .push
  | .pop _ => .pop
  | .prn _ => .prn
  | .call _ => .call
  | .jmp _ => .jmp
  | .jeq _ => .jeq
  | .jne _ => .jne
  | .not _ => .not
  | .ldi _ _ => .ldi
  | .add _ _ => .add
  | .sub _ _ => .sub
  | .mul _ _ => .mul
  | .mod _ _ => .mod
  | .cmp _ _ => .cmp
  | .and _ _ => .and
  | .or _ _ => .or
  | .xor _ _ => .xor
  | .shl _ _ => .shl
  | .shr _ _ => .shr

/-- The operand bytes of an instruction, at `pc + 1` onward (R80, R90). -/
def Instr.operandBytes : Instr → List Byte
  | .hlt | .ret => []
  | .push a | .pop a | .prn a | .call a | .jmp a | .jeq a | .jne a | .not a => [a]
  | .ldi a b | .add a b | .sub a b | .mul a b | .mod a b | .cmp a b => [a, b]
  | .and a b | .or a b | .xor a b | .shl a b | .shr a b => [a, b]

/-- The instruction a mnemonic makes of the two operand bytes of the fetch window. The bytes past its length are
ignored (R84). -/
def Mnemonic.withOperands (m : Mnemonic) (a b : Byte) : Instr :=
  match m with
  | .hlt => .hlt
  | .ret => .ret
  | .push => .push a
  | .pop => .pop a
  | .prn => .prn a
  | .call => .call a
  | .jmp => .jmp a
  | .jeq => .jeq a
  | .jne => .jne a
  | .not => .not a
  | .ldi => .ldi a b
  | .add => .add a b
  | .sub => .sub a b
  | .mul => .mul a b
  | .mod => .mod a b
  | .cmp => .cmp a b
  | .and => .and a b
  | .or => .or a b
  | .xor => .xor a b
  | .shl => .shl a b
  | .shr => .shr a b

/-- What decoding answers (R87): an instruction of the active set, or `Unknown` with the byte named. -/
inductive Decoded where
  | instr (i : Instr)
  | unknown (op : Byte)
deriving DecidableEq, Repr

/-- The mnemonic of the active set that a map gives the opcode byte, all 8 bits compared (R87). -/
def selectWith (map : OpcodeMap) (set : AluDecodeSet) (op : Byte) : Option Mnemonic :=
  Mnemonic.all.find? (fun m => decodedUnder set m && map m == op)

/-- Decoding under any opcode map (R87): a total function that selects by the opcode byte alone. -/
def decodeWith (map : OpcodeMap) (set : AluDecodeSet) (op a b : Byte) : Decoded :=
  match selectWith map set op with
  | some m => .instr (m.withOperands a b)
  | none => .unknown op

/-- Decoding of the fetch window `op`, `a`, `b` under the map of R85. -/
def decode (set : AluDecodeSet) (op a b : Byte) : Decoded := decodeWith opcodeMap set op a b

/-- Encoding under any opcode map (R90): the opcode byte, then the operand bytes. -/
def encodeWith (map : OpcodeMap) (i : Instr) : List Byte := map i.mnemonic :: i.operandBytes

/-- The bytes of an instruction under the map of R85. -/
def encode (i : Instr) : List Byte := encodeWith opcodeMap i

/-- Byte `k` of an instruction given as a number of `nbits` bits, bit 0 the least significant bit of the opcode byte
and byte 1 in bits 15 to 8 (opcode_table.json's numbering; R66 lays the bytes at increasing addresses). Every bit above
`nbits` is 0. -/
def wordByte (nbits w k : Nat) : Byte := BitVec.ofNat 8 (w % 2 ^ nbits / 256 ^ k)

/-- The instruction the decoder reads from an opcode-table word. The table lists the rows of both settings of
`ALU_DECODE_SET`, so the word is read under `Extended`, the setting that decodes every row ("decoded_when"; log entry 6). -/
def decodeTableWord (nbits w : Nat) : Option Instr :=
  match decode .extended (wordByte nbits w 0) (wordByte nbits w 1) (wordByte nbits w 2) with
  | .instr i => some i
  | .unknown _ => none

end Sys2Proof
end

