-- ==== Sys2Proof/Machine/Flags.lean ====
section
/-! DEFINITION. The flag codes of FL (10_state.md R37) and the one computation that writes them (41_alu.md R135). -/

namespace Sys2Proof.Machine

/-- EQUAL, bit 0 (R37). -/
def flEqual : BitVec 3 := 0b001

/-- GREATER_THAN, bit 1 (R37). -/
def flGreater : BitVec 3 := 0b010

/-- LESS_THAN, bit 2 (R37). -/
def flLess : BitVec 3 := 0b100

/-- The flags CMP sets from its left and right operand: exactly one bit, the comparison unsigned (R135, R19). -/
def cmpFlags (d s : Byte) : BitVec 3 :=
  if d = s then flEqual else if d.toNat < s.toNat then flLess else flGreater

/-- "flags == EQUAL exactly" (R206), what JEQ and JNE test. -/
def isEqual (fl : BitVec 3) : Bool := fl == flEqual

end Sys2Proof.Machine
end

