-- ==== Sys2Proof/Machine/Parameters.lean ====
section
/-! DEFINITION. The numbers of the configuration (00_scope.md section 4), and the settings State.reset is given. -/

namespace Sys2Proof.Machine

/-- `MEM_SIZE` (R7): the number of memory cells, addresses 0 to `memSize - 1`. Conflict C1: 255, not 256. -/
def memSize : Nat := 255

/-- `SP_INDEX` (R9) as the register index byte that names the stack pointer: R7. -/
def spIndex : Byte := 7

/-- `SP_RESET` (R10). -/
def spReset : Byte := 0xF4

/-- `COMMENT_MARKER` (R17), of the external loader only. -/
def commentMarker : Char := '#'

/-- The parameter settings of State.reset: the spec's defaults for `ALU_DECODE_SET` (R14) and `MOD_SEMANTICS` (R15),
and `Zero` for `REG_RESET_POLICY` (R16), so that every register holds a value a program may read (DESIGN CHOICE,
log entry 1). -/
def resetParams : Params :=
  { aluDecodeSet := .core, modSemantics := .noop, regResetPolicy := .zero }

end Sys2Proof.Machine
end

