-- ==== Sys2Proof/Machine/State.lean ====
section
/-! DEFINITION. The whole state of CORE as plain data (spec 10_state.md), the fault causes (60_exceptions.md R241), the
host's events (40_control_unit.md R111, R113), and the state after reset (70_reset_and_hazards.md R270). -/

namespace Sys2Proof.Machine

/-- STATE of the control unit (R40). -/
inductive Ctrl where
  | idle | running | halted | faulted
deriving DecidableEq, Repr

/-- The fault causes of R241, each with the value it names. Taking one is a NEXT state (`takeFault`, R242), not a stop
of the model. -/
inductive FaultCause where
  /-- Code 1: decode found no instruction for the opcode byte (R88, R104). -/
  | unknownOpcode (op : Byte)
  /-- Code 2: the ALU was given another operation than its eleven (R142); no program reaches it. -/
  | unsupportedAluOp (op : Byte)
  /-- Code 3: an access at an address with no cell (R62, R63). -/
  | memOutOfRange (addr : Nat)
  /-- Code 4: a register index of 8 or more was used (R32). -/
  | regOutOfRange (i : Byte)
  /-- Code 5: under `Unwritten`, a read of a register not written since reset (R33). -/
  | unwrittenRegisterRead (i : Byte)
  /-- Code 6: under `Modulo`, MOD by a register that holds 0 (R134); `i` is the divisor's index. -/
  | modByZero (i : Byte)
deriving DecidableEq, Repr

/-- One act of the host on the input pins (R111, R113), at most one a step (log entry 5). -/
inductive HostInput where
  /-- No pin asserted. -/
  | quiet
  /-- `rst` asserted (R270). -/
  | rst
  /-- `load_we` asserted with `load_addr` and `load_data`. -/
  | load (addr data : Byte)
  /-- `start` asserted. -/
  | start
deriving DecidableEq, Repr

/-- The memory array (R43, R60) as the cells that do not read as `Memory.unlisted`, addresses strictly rising. -/
abbrev Memory := List Host.Cell

/-- Everything the spec gives the machine (10_state.md section 1), with the parameters it runs under and the host's acts
still to come. -/
structure State where
  /-- The settings of `ALU_DECODE_SET`, `MOD_SEMANTICS`, `REG_RESET_POLICY` (R14 to R16); nothing changes them. -/
  params : Params
  /-- R0 to R7 (R30); R7 is the stack pointer (R34). -/
  regs : Vector Byte 8
  /-- VALID[0] to VALID[7] (R33). -/
  valid : Vector Bool 8
  /-- PC (R35). -/
  pc : Byte
  /-- FL (R37): bit 0 equal, bit 1 greater than, bit 2 less than. -/
  fl : BitVec 3
  /-- STATE (R40). -/
  ctrl : Ctrl
  /-- FAULT_CAUSE (R41). -/
  faultCause : BitVec 3
  /-- FAULT_PC (R41). -/
  faultPc : Byte
  /-- FAULT_OP (R41). -/
  faultOp : Byte
  /-- FAULT_VALUE (R41). -/
  faultValue : BitVec 9
  /-- IR, the opcode latch of the last fetch (R42). -/
  ir : Byte
  /-- OPA, the latch of `pc + 1` (R42). -/
  opa : Byte
  /-- OPB, the latch of `pc + 2` (R42). -/
  opb : Byte
  /-- MEM (R43). -/
  mem : Memory
  /-- `load_err`, sticky (R111, R113). -/
  loadErr : Bool
  /-- OUT, the emitted values, oldest first (R44, R114). -/
  out : List Byte
  /-- The model's own field: the host's acts still to come, one read by each step (log entry 5). -/
  inputs : List HostInput
deriving DecidableEq, Repr

/-- The ways the MODEL stops with a fault: none. Every fatal error the spec names has an entry the spec describes (R242),
so it is a next state in FAULTED; nobody raises a value of this type, which is safe. -/
inductive Fault where
deriving DecidableEq, Repr

/-- The ways the model refuses an instruction. -/
inductive Refusal where
  /-- Raised only by an arm of `exec` that has no meaning yet; every arm has its meaning, so nobody raises it. Safe. -/
  | notModelled (mnemonic : String)
deriving DecidableEq, Repr

/-- The state after reset under given parameter settings (R270, the values of 10_state.md). R0 to R6 are 0: stated under
`Zero`, unreadable under `Unwritten` (R33, log entry 1). IR, OPA and OPB are 0: DESIGN CHOICE, log entry 2. -/
def State.resetWith (p : Params) : State :=
  { params := p
    regs := #v[0, 0, 0, 0, 0, 0, 0, spReset]
    valid := #v[false, false, false, false, false, false, false, true]
    pc := 0
    fl := 0
    ctrl := .idle
    faultCause := 0
    faultPc := 0
    faultOp := 0
    faultValue := 0
    ir := 0
    opa := 0
    opb := 0
    mem := []
    loadErr := false
    out := []
    inputs := [] }

/-- The machine right after reset, under the settings of `resetParams`. -/
def State.reset : State := State.resetWith resetParams

end Sys2Proof.Machine
end

