-- ==== Sys2Proof/Machine/Ops.lean ====
section
/-! DEFINITION. The primitives every rule is written with (00_scope.md R20): register access, memory access, the program
counter, the output port, and taking a fault (60_exceptions.md R242). An instruction is a sequence of statements, `Act`,
which either runs to its end or stops at a `raise`; what ran before the raise keeps its effect (R243). -/

namespace Sys2Proof.Machine

/-- A sequence of statements: from a state, its value and the state after it, or the cause raised and the state at the
raise (R20, R243). -/
abbrev Act := EStateM FaultCause State

/-- `raise <Fault>`: stop the sequence here; the state stays as the statements before left it (R20). -/
def raise {α : Type} (f : FaultCause) : Act α := fun s => .error f s

/-! ### Memory (20_memory.md) -/

/-- What a cell that is not listed reads as: 0, the reset contents ("zero-filled", R43). -/
def Memory.unlisted : Byte := 0

/-- The contents of the cell at an address. -/
def Memory.read : Memory → Nat → Byte
  | [], _ => Memory.unlisted
  | (b, w) :: m, a => if a = b then w else Memory.read m a

/-- The memory with one cell changed, the listing kept in its canonical form. -/
def Memory.write : Memory → Nat → Byte → Memory
  | [], a, v => if v = Memory.unlisted then [] else [(a, v)]
  | (b, w) :: m, a, v =>
    if a < b then (if v = Memory.unlisted then (b, w) :: m else (a, v) :: (b, w) :: m)
    else if a = b then (if v = Memory.unlisted then m else (a, v) :: m)
    else (b, w) :: Memory.write m a v

/-- Addresses strictly rising from `lo`, all with a cell behind them, no cell equal to what an unlisted one reads as. -/
def Memory.wfFrom : Nat → Memory → Bool
  | _, [] => true
  | lo, (a, v) :: m => decide (lo ≤ a) && decide (a < memSize) && v != Memory.unlisted && Memory.wfFrom (a + 1) m

/-- The canonical form of a memory. -/
def Memory.wf (m : Memory) : Bool := Memory.wfFrom 0 m

/-- There is a cell at the address (R60, R64). -/
def inMemory (addr : Nat) : Bool := decide (addr < memSize)

/-- `MemRead(addr, 1)` (R62). The address is a natural number: nothing wraps (R64). -/
def memRead (addr : Nat) : Act Byte := fun s =>
  if inMemory addr then .ok (s.mem.read addr) s else .error (.memOutOfRange addr) s

/-- `MemWrite(addr, 1, v)` (R63): only this one cell changes. -/
def memWrite (addr : Nat) (v : Byte) : Act Unit := fun s =>
  if inMemory addr then .ok () { s with mem := s.mem.write addr v } else .error (.memOutOfRange addr) s

/-! ### Registers (10_state.md) -/

/-- The index names a register (R32). -/
def isReg (i : Byte) : Bool := decide (i.toNat < 8)

/-- What register `i` holds; 0, never used, for an index that names none. -/
def State.x (s : State) (i : Byte) : Byte := if h : i.toNat < 8 then s.regs[i.toNat] else 0

/-- VALID[i] (R33); false, never used, for an index that names none. -/
def State.isValid (s : State) (i : Byte) : Bool := if h : i.toNat < 8 then s.valid[i.toNat] else false

/-- A read of register `i` raises nothing (R32, R33). -/
def State.readable (s : State) (i : Byte) : Bool :=
  isReg i && (s.params.regResetPolicy == .zero || s.isValid i)

/-- The state with register `i` holding `v`, and VALID[i] set (R33). An index that names none changes nothing. -/
def State.setX (s : State) (i v : Byte) : State :=
  if h : i.toNat < 8 then
    { s with regs := s.regs.set i.toNat v h, valid := s.valid.set i.toNat true h }
  else s

/-- The stack pointer (R34). -/
def State.sp (s : State) : Byte := s.x spIndex

/-- The read `x[i]` (R20, R32, R33): the index is checked first, then, under `Unwritten`, the validity bit. -/
def readReg (i : Byte) : Act Byte := fun s =>
  if isReg i then
    (if s.readable i then .ok (s.x i) s else .error (.unwrittenRegisterRead i) s)
  else .error (.regOutOfRange i) s

/-- The write `x[i] <- v` (R20, R31, R32). -/
def writeReg (i v : Byte) : Act Unit := fun s =>
  if isReg i then .ok () (s.setX i v) else .error (.regOutOfRange i) s

/-! ### Program counter, flags, control state, output port, fetch latches -/

/-- The program counter: the address of the opcode byte of the instruction being executed (R35). -/
def readPc : Act Byte := fun s => .ok s.pc s

/-- `pc <- target` (R20). -/
def setPc (t : Byte) : Act Unit := fun s => .ok () { s with pc := t }

/-- `pc <- pc + n` (R107). The sum never passes 255 in a step (R36, log entry 8). -/
def advance (n : Byte) : Act Unit := fun s => .ok () { s with pc := s.pc + n }

/-- FL as JEQ and JNE read it (R38). -/
def readFl : Act (BitVec 3) := fun s => .ok s.fl s

/-- `FL <- v` (R20). -/
def setFl (v : BitVec 3) : Act Unit := fun s => .ok () { s with fl := v }

/-- `STATE <- c` (R20). -/
def setCtrl (c : Ctrl) : Act Unit := fun s => .ok () { s with ctrl := c }

/-- `emit(v)`: one output event, recorded at the end of OUT (R114). -/
def emit (v : Byte) : Act Unit := fun s => .ok () { s with out := s.out ++ [v] }

/-- `IR <- v` (R102). -/
def setIr (v : Byte) : Act Unit := fun s => .ok () { s with ir := v }

/-- `OPA <- v` (R102). -/
def setOpa (v : Byte) : Act Unit := fun s => .ok () { s with opa := v }

/-- `OPB <- v` (R102). -/
def setOpb (v : Byte) : Act Unit := fun s => .ok () { s with opb := v }

/-! ### Taking a fault (60_exceptions.md) -/

/-- The code FAULT_CAUSE takes (R241). -/
def FaultCause.code : FaultCause → BitVec 3
  | .unknownOpcode _ => 1
  | .unsupportedAluOp _ => 2
  | .memOutOfRange _ => 3
  | .regOutOfRange _ => 4
  | .unwrittenRegisterRead _ => 5
  | .modByZero _ => 6

/-- The value FAULT_VALUE takes (R241), 9 bits wide (R41). -/
def FaultCause.value : FaultCause → BitVec 9
  | .unknownOpcode op => op.zeroExtend 9
  | .unsupportedAluOp op => op.zeroExtend 9
  | .memOutOfRange addr => BitVec.ofNat 9 addr
  | .regOutOfRange i => i.zeroExtend 9
  | .unwrittenRegisterRead i => i.zeroExtend 9
  | .modByZero i => i.zeroExtend 9

/-- Fault entry (R242): the four fault registers and STATE, nothing else. `op` is IR if the opcode read succeeded, else 0.
There is no return from it but reset (R246). -/
def takeFault (f : FaultCause) (op : Byte) (s : State) : State :=
  { s with
    faultCause := f.code
    faultPc := s.pc
    faultOp := op
    faultValue := f.value
    ctrl := .faulted }

/-- The end of an instruction: its sequence ran through, or it raised and the fault is taken with the effects made so
far kept (R242, R243). The opcode read of an instruction that executes succeeded, so FAULT_OP is IR. -/
def finish : EStateM.Result FaultCause State Unit → Host.Outcome State Fault Refusal
  | .ok _ s => .next s
  | .error f s => .next (takeFault f s.ir s)

/-- An instruction from its sequence of statements. -/
def runInstr (act : Act Unit) (s : State) : Host.Outcome State Fault Refusal := finish (act s)

end Sys2Proof.Machine
end

