-- ==== Sys2Proof/Machine/Operands.lean ====
section
/-! DEFINITION. The operand forms (30_encoding.md R82, R83; 43_stack.md): a register, two registers read in order, an
immediate, the stack's pre-decrement and post-increment, an absolute jump target. -/

namespace Sys2Proof.Machine

/-- Two register operands: `a` is read and checked before `b` (41_alu.md R130, R244). -/
def readPair (a b : Byte) : Act (Byte × Byte) := do
  let d ← readReg a
  let s ← readReg b
  pure (d, s)

/-- An immediate operand, used unchanged: `zext_8(b) = b` (R83). -/
def immediate (b : Byte) : Byte := b

/-- The stack pointer moved by `k`, modulo 256 (R31, R34). -/
def moveSp (k : Byte) : Act Unit := do
  let p ← readReg spIndex
  writeReg spIndex (p + k)

/-- Pre-decrement: `x[7] <- (x[7] - 1) mod 256` (R190, R200). -/
def decrementSp : Act Unit := moveSp (-1)

/-- Post-increment: `x[7] <- (x[7] + 1) mod 256` (R191, R201). -/
def incrementSp : Act Unit := moveSp 1

/-- The effective address of a store through the stack: the stack pointer after its decrement (R190). -/
def State.pushAddr (s : State) : Nat := (s.sp - 1).toNat

/-- The effective address of a load through the stack: the stack pointer before its increment (R191). -/
def State.popAddr (s : State) : Nat := s.sp.toNat

/-- `MemWrite(x[7], 1, v)`: a store at the stack pointer as it now is. -/
def storeAtSp (v : Byte) : Act Unit := do
  let p ← readReg spIndex
  memWrite p.toNat v

/-- `MemRead(x[7], 1)`: a load at the stack pointer as it now is. -/
def loadAtSp : Act Byte := do
  let p ← readReg spIndex
  memRead p.toNat

/-- `t <- x[a]; pc <- t`: an absolute jump to a register's value (44_control_transfer.md). -/
def jumpToReg (a : Byte) : Act Unit := do
  let t ← readReg a
  setPc t

end Sys2Proof.Machine
end

