-- ==== Sys2Proof/Machine/Alu.lean ====
section
/-! DEFINITION. The ALU as a block (41_alu.md part A, R130 to R143) and the eleven instructions that reach it (part B,
R150 to R167). -/

namespace Sys2Proof.Machine

/-- The shape of the two-operand operations: `d <- x[dest]; s <- x[src]; x[dest] <- f d s` (R130). -/
def aluBinary (f : Byte → Byte → Byte) (dest src : Byte) : Act Unit := do
  let (d, s) ← readPair dest src
  writeReg dest (f d s)

/-- `alu(ADD, dest, src)` (R131): the sum modulo 256. -/
def aluAdd (dest src : Byte) : Act Unit := aluBinary (fun d s => d + s) dest src

/-- `alu(SUB, dest, src)` (R132): the difference modulo 256. -/
def aluSub (dest src : Byte) : Act Unit := aluBinary (fun d s => d - s) dest src

/-- `alu(MUL, dest, src)` (R133): the low 8 bits of the product. -/
def aluMul (dest src : Byte) : Act Unit := aluBinary (fun d s => d * s) dest src

/-- `alu(MOD, dest, src)` under `Modulo` (R134): a zero divisor raises ModByZero. -/
def aluTrueMod (dest src : Byte) : Act Unit := do
  let (d, s) ← readPair dest src
  if s = 0 then raise (.modByZero src) else writeReg dest (d % s)

/-- `alu(MOD, dest, src)` (R134): under `Noop` nothing is read, written or checked. -/
def aluMod (dest src : Byte) : Act Unit := fun s =>
  match s.params.modSemantics with
  | .noop => .ok () s
  | .modulo => aluTrueMod dest src s

/-- `alu(CMP, dest, src)` (R135): FL, and no register, is written. -/
def aluCmp (dest src : Byte) : Act Unit := do
  let (d, s) ← readPair dest src
  setFl (cmpFlags d s)

/-- `alu(AND, dest, src)` (R136). -/
def aluAnd (dest src : Byte) : Act Unit := aluBinary (fun d s => d &&& s) dest src

/-- `alu(OR, dest, src)` (R137). -/
def aluOr (dest src : Byte) : Act Unit := aluBinary (fun d s => d ||| s) dest src

/-- `alu(XOR, dest, src)` (R138). -/
def aluXor (dest src : Byte) : Act Unit := aluBinary (fun d s => d ^^^ s) dest src

/-- `alu(NOT, dest, src)` (R139): masked to 8 bits (conflict C4); `src` is not read and not checked. -/
def aluNot (dest _src : Byte) : Act Unit := do
  let d ← readReg dest
  writeReg dest (~~~d)

/-- `alu(SHL, dest, src)` (R140): a logical left shift by 0 to 255 positions. -/
def aluShl (dest src : Byte) : Act Unit := aluBinary (fun d s => d <<< s.toNat) dest src

/-- `alu(SHR, dest, src)` (R141): a logical right shift by 0 to 255 positions. -/
def aluShr (dest src : Byte) : Act Unit := aluBinary (fun d s => d >>> s.toNat) dest src

/-- The ALU (R130): `op` is the opcode byte of the same-named instruction (D19), and any other value raises
UnsupportedAluOp before any register is read (R142). -/
def alu (op dest src : Byte) : Act Unit :=
  if op = opcodeMap .add then aluAdd dest src
  else if op = opcodeMap .sub then aluSub dest src
  else if op = opcodeMap .mul then aluMul dest src
  else if op = opcodeMap .mod then aluMod dest src
  else if op = opcodeMap .cmp then aluCmp dest src
  else if op = opcodeMap .and then aluAnd dest src
  else if op = opcodeMap .or then aluOr dest src
  else if op = opcodeMap .xor then aluXor dest src
  else if op = opcodeMap .not then aluNot dest src
  else if op = opcodeMap .shl then aluShl dest src
  else if op = opcodeMap .shr then aluShr dest src
  else raise (.unsupportedAluOp op)

/-- A two-operand ALU instruction: `alu(m, a, b); pc <- pc + 3`. -/
def aluInstr (m : Mnemonic) (a b : Byte) : Act Unit := do
  alu (opcodeMap m) a b
  advance 3

/-- ADD (R150). -/
def execAdd (a b : Byte) (s : State) : Host.Outcome State Fault Refusal := runInstr (aluInstr .add a b) s

/-- MUL (R151). -/
def execMul (a b : Byte) (s : State) : Host.Outcome State Fault Refusal := runInstr (aluInstr .mul a b) s

/-- CMP (R152). -/
def execCmp (a b : Byte) (s : State) : Host.Outcome State Fault Refusal := runInstr (aluInstr .cmp a b) s

/-- SUB (R160). -/
def execSub (a b : Byte) (s : State) : Host.Outcome State Fault Refusal := runInstr (aluInstr .sub a b) s

/-- MOD (R161). -/
def execMod (a b : Byte) (s : State) : Host.Outcome State Fault Refusal := runInstr (aluInstr .mod a b) s

/-- AND (R162). -/
def execAnd (a b : Byte) (s : State) : Host.Outcome State Fault Refusal := runInstr (aluInstr .and a b) s

/-- OR (R163). -/
def execOr (a b : Byte) (s : State) : Host.Outcome State Fault Refusal := runInstr (aluInstr .or a b) s

/-- XOR (R164). -/
def execXor (a b : Byte) (s : State) : Host.Outcome State Fault Refusal := runInstr (aluInstr .xor a b) s

/-- SHL (R166). -/
def execShl (a b : Byte) (s : State) : Host.Outcome State Fault Refusal := runInstr (aluInstr .shl a b) s

/-- SHR (R167). -/
def execShr (a b : Byte) (s : State) : Host.Outcome State Fault Refusal := runInstr (aluInstr .shr a b) s

/-- The statements of NOT: `alu(NOT, a, -); pc <- pc + 2`. The ALU's `src` is not read (R139), so any byte stands for
it. -/
def notInstr (a : Byte) : Act Unit := do
  alu (opcodeMap .not) a a
  advance 2

/-- NOT (R165): length 2; the byte at `pc + 2` is ignored. -/
def execNot (a : Byte) (s : State) : Host.Outcome State Fault Refusal := runInstr (notInstr a) s

end Sys2Proof.Machine
end

