-- ==== Sys2Proof/Machine/Control.lean ====
section
/-! DEFINITION. CALL, RET, JMP, JEQ, JNE (44_control_transfer.md R200 to R207). -/

namespace Sys2Proof.Machine

/-- The statements of CALL: `x[7] <- (x[7] - 1) mod 256; MemWrite(x[7], 1, pc + 2); t <- x[a]; pc <- t`. -/
def callInstr (a : Byte) : Act Unit := do
  decrementSp
  let p ← readPc
  storeAtSp (p + 2)
  jumpToReg a

/-- CALL (R200). -/
def execCall (a : Byte) (s : State) : Host.Outcome State Fault Refusal := runInstr (callInstr a) s

/-- The statements of RET: `t <- MemRead(x[7], 1); x[7] <- (x[7] + 1) mod 256; pc <- t`. -/
def retInstr : Act Unit := do
  let t ← loadAtSp
  incrementSp
  setPc t

/-- RET (R201). -/
def execRet (s : State) : Host.Outcome State Fault Refusal := runInstr retInstr s

/-- JMP (R205): `t <- x[a]; pc <- t`. -/
def execJmp (a : Byte) (s : State) : Host.Outcome State Fault Refusal := runInstr (jumpToReg a) s

/-- A conditional jump: the target register is read only when the jump is taken (R206, R207, D10). -/
def jumpIf (taken : BitVec 3 → Bool) (a : Byte) : Act Unit := do
  let f ← readFl
  if taken f then jumpToReg a else advance 2

/-- JEQ (R206): taken when FL is EQUAL exactly. -/
def execJeq (a : Byte) (s : State) : Host.Outcome State Fault Refusal := runInstr (jumpIf isEqual a) s

/-- JNE (R207): taken when FL is not EQUAL. -/
def execJne (a : Byte) (s : State) : Host.Outcome State Fault Refusal := runInstr (jumpIf (fun f => !isEqual f) a) s

end Sys2Proof.Machine
end

