-- ==== Sys2Proof/Machine/Halt.lean ====
section
/-! DEFINITION. HLT (45_halt.md R220), the one system instruction (R221). -/

namespace Sys2Proof.Machine

/-- The statements of HLT: `STATE <- HALTED; pc <- pc + 1`. -/
def hltInstr : Act Unit := do
  setCtrl .halted
  advance 1

/-- HLT (R220). -/
def execHlt (s : State) : Host.Outcome State Fault Refusal := runInstr hltInstr s

end Sys2Proof.Machine
end

