-- ==== Sys2Proof/Machine/LoadOutput.lean ====
section
/-! DEFINITION. LDI and PRN (42_load_output.md R180, R181). -/

namespace Sys2Proof.Machine

/-- The statements of LDI: `x[a] <- b; pc <- pc + 3`. -/
def ldiInstr (a imm : Byte) : Act Unit := do
  writeReg a (immediate imm)
  advance 3

/-- LDI (R180). -/
def execLdi (a imm : Byte) (s : State) : Host.Outcome State Fault Refusal := runInstr (ldiInstr a imm) s

/-- The statements of PRN: `v <- x[a]; emit(v); pc <- pc + 2`. -/
def prnInstr (a : Byte) : Act Unit := do
  let v ← readReg a
  emit v
  advance 2

/-- PRN (R181). -/
def execPrn (a : Byte) (s : State) : Host.Outcome State Fault Refusal := runInstr (prnInstr a) s

end Sys2Proof.Machine
end

