-- ==== Sys2Proof/Machine/Stack.lean ====
section
/-! DEFINITION. PUSH and POP (43_stack.md R190, R191), statement by statement in the order the rules write them (D10). -/

namespace Sys2Proof.Machine

/-- The statements of PUSH: `x[7] <- (x[7] - 1) mod 256; v <- x[a]; MemWrite(x[7], 1, v); pc <- pc + 2`. -/
def pushInstr (a : Byte) : Act Unit := do
  decrementSp
  let v ← readReg a
  storeAtSp v
  advance 2

/-- PUSH (R190). -/
def execPush (a : Byte) (s : State) : Host.Outcome State Fault Refusal := runInstr (pushInstr a) s

/-- The statements of POP: `v <- MemRead(x[7], 1); x[a] <- v; x[7] <- (x[7] + 1) mod 256; pc <- pc + 2`. -/
def popInstr (a : Byte) : Act Unit := do
  let v ← loadAtSp
  writeReg a v
  incrementSp
  advance 2

/-- POP (R191). -/
def execPop (a : Byte) (s : State) : Host.Outcome State Fault Refusal := runInstr (popInstr a) s

end Sys2Proof.Machine
end

