-- ==== Sys2Proof/Machine/Fetch.lean ====
section
/-! DEFINITION. The fetch (40_control_unit.md R102, R103): three checked reads at `pc`, `pc + 1`, `pc + 2`, in that order,
whatever the instruction's length. The addresses are natural numbers and do not wrap. -/

namespace Sys2Proof.Machine

/-- `op <- MemRead(pc, 1); IR <- op`. -/
def fetchOpcode : Act Byte := do
  let p ← readPc
  let op ← memRead p.toNat
  setIr op
  pure op

/-- `a <- MemRead(pc + 1, 1); OPA <- a; b <- MemRead(pc + 2, 1); OPB <- b`. -/
def fetchOperands : Act (Byte × Byte) := do
  let p ← readPc
  let a ← memRead (p.toNat + 1)
  setOpa a
  let b ← memRead (p.toNat + 2)
  setOpb b
  pure (a, b)

/-- The whole fetch window lies in memory, so that the fetch raises nothing (R103, R276). -/
def State.windowInMemory (s : State) : Bool := inMemory (s.pc.toNat + 2)

/-- The byte the fetch reads at `pc + k`. -/
def State.fetchByte (s : State) (k : Nat) : Byte := s.mem.read (s.pc.toNat + k)

/-- The state with the three fetch latches holding the window's bytes (R42). -/
def State.latched (s : State) (op a b : Byte) : State := { s with ir := op, opa := a, opb := b }

end Sys2Proof.Machine
end

