-- ==== Sys2Proof/Machine/Ports.lean ====
section
/-! DEFINITION. The block's ports (40_control_unit.md R111 to R114): what the host's acts on the input pins do, and what the
output pins show. -/

namespace Sys2Proof.Machine

/-! ### Input pins -/

/-- The host's act for this step: the next one, or none asserted when the list is empty. -/
def State.input (s : State) : HostInput := s.inputs.headD .quiet

/-- The state with that act taken from the list. -/
def State.afterInput (s : State) : State := { s with inputs := s.inputs.tail }

/-- `rst` asserted (R270): every piece of state takes its reset value. The parameters are fixed for the machine, and the
host's later acts are not state of the block. -/
def assertReset (s : State) : State := { State.resetWith s.params with inputs := s.inputs }

/-- `load_we` in IDLE (R113): `MemWrite(load_addr, 1, load_data)`, or `load_err <- 1` and no cell changed. -/
def loadByte (addr data : Byte) (s : State) : State :=
  if inMemory addr.toNat then { s with mem := s.mem.write addr.toNat data } else { s with loadErr := true }

/-- `start` in IDLE (R100, R113): RUNNING if `load_err` = 0, else ignored. -/
def startBlock (s : State) : State := if s.loadErr then s else { s with ctrl := .running }

/-- What an act of the host does in IDLE (R100, R113). -/
def idleStep (e : HostInput) (s : State) : State :=
  match e with
  | .quiet => s
  | .rst => assertReset s
  | .load addr data => loadByte addr data s
  | .start => startBlock s

/-! ### Status pins: shown at all times (R112) -/

/-- The encoding of STATE on the `state` pin (R40). -/
def Ctrl.code : Ctrl → BitVec 2
  | .idle => 0
  | .running => 1
  | .halted => 2
  | .faulted => 3

/-- `state` (R111). -/
def statePort (s : State) : BitVec 2 := s.ctrl.code

/-- `halted` (R111), the document's "Halted flag" (R39). -/
def haltedPort (s : State) : Bool := s.ctrl == .halted

/-- `faulted` (R111). -/
def faultedPort (s : State) : Bool := s.ctrl == .faulted

/-- `fault_cause` (R111). -/
def faultCausePort (s : State) : BitVec 3 := s.faultCause

/-- `fault_pc` (R111). -/
def faultPcPort (s : State) : Byte := s.faultPc

/-- `fault_op` (R111). -/
def faultOpPort (s : State) : Byte := s.faultOp

/-- `fault_value` (R111). -/
def faultValuePort (s : State) : BitVec 9 := s.faultValue

/-- `load_err` (R111). -/
def loadErrPort (s : State) : Bool := s.loadErr

/-- `out_valid` and `out_data` of one step, from the state before and after it (R114): the event it emitted, if any. -/
def outPort (before after : State) : Option Byte := (after.out.drop before.out.length).head?

/-! ### Inspection pins: valid outside RUNNING only (R113); `none` where the value is unspecified (log entry 7) -/

/-- The inspection pins show the state (R113). -/
def dbgValid (s : State) : Bool := s.ctrl != .running

/-- `dbg_reg` for `dbg_reg_sel` (R111). Under `Unwritten` an unwritten register's value is unspecified (R33). -/
def dbgReg (sel : BitVec 3) (s : State) : Option Byte :=
  if dbgValid s && s.readable (sel.zeroExtend 8) then some (s.x (sel.zeroExtend 8)) else none

/-- `dbg_mem` for `dbg_mem_addr` (R111): an address with no cell reads as 0 and sets nothing. -/
def dbgMem (addr : Byte) (s : State) : Option Byte :=
  if dbgValid s then some (if inMemory addr.toNat then s.mem.read addr.toNat else 0) else none

/-- `dbg_pc` (R111). -/
def dbgPc (s : State) : Option Byte := if dbgValid s then some s.pc else none

/-- `dbg_fl` (R111). -/
def dbgFl (s : State) : Option (BitVec 3) := if dbgValid s then some s.fl else none

end Sys2Proof.Machine
end

