-- ==== Sys2Proof/Machine/Step.lean ====
section
/-! DEFINITION. One step (40_control_unit.md R100 to R104): the host's act, then, in RUNNING, fetch, decode and execute. -/

namespace Sys2Proof.Machine

/-- A step's decode and execution (R102, R104): the latches hold the window; an unknown opcode is a fault. -/
def decodeAndExec (op a b : Byte) (s : State) : Host.Outcome State Fault Refusal :=
  match decode s.params.aluDecodeSet op a b with
  | .instr i => exec i s
  | .unknown o => .next (takeFault (.unknownOpcode o) s.ir s)

/-- One step of the control unit in RUNNING (R102). A fetch fault comes before decode (R104, R244); FAULT_OP is 0 if the
opcode read itself failed (R242). -/
def stepRunning (s : State) : Host.Outcome State Fault Refusal :=
  match fetchOpcode s with
  | .error f s1 => .next (takeFault f 0 s1)
  | .ok op s1 =>
    match fetchOperands s1 with
    | .error f s2 => .next (takeFault f s2.ir s2)
    | .ok (a, b) s2 => decodeAndExec op a b s2

/-- One step of the block (R100, R101, R113): reset acts in every state, a load and a start in IDLE; RUNNING executes one
instruction; HALTED and FAULTED hold every state. -/
def step (s : State) : Host.Outcome State Fault Refusal :=
  if s.input = .rst then .next (assertReset s.afterInput)
  else
    match s.ctrl with
    | .idle => .next (idleStep s.input s.afterInput)
    | .running => stepRunning s.afterInput
    | .halted => .next s.afterInput
    | .faulted => .next s.afterInput

/-- The program counter a fetched word is placed at: the machine's own, or the entry point 0 where no fetch window fits
(R103, R271). -/
def State.fetchPlace (s : State) : Byte := if s.windowInMemory then s.pc else 0

/-- Memory with a three-byte window stored at an address, the opcode lowest (R66). -/
def Memory.writeWindow (m : Memory) (addr : Nat) (op a b : Byte) : Memory :=
  ((m.write addr op).write (addr + 1) a).write (addr + 2) b

/-- The settings under which a table word is decoded: `Extended` for a row that only `Extended` decodes (R14), the
machine's own otherwise. -/
def paramsFor (p : Params) (op : Byte) : Params :=
  match selectWith opcodeMap p.aluDecodeSet op, selectWith opcodeMap .extended op with
  | none, some _ => { p with aluDecodeSet := .extended }
  | _, _ => p

/-- The state in which the very next step fetches and runs an opcode-table word: the word stored at the program counter,
STATE = RUNNING and no pin asserted in that step. It stands for a load and a start (R272; log entry 10). -/
def State.withFetchWord (s : State) (nbits w : Nat) : State :=
  { s with
    params := paramsFor s.params (wordByte nbits w 0)
    pc := s.fetchPlace
    ctrl := .running
    mem := s.mem.writeWindow s.fetchPlace.toNat (wordByte nbits w 0) (wordByte nbits w 1) (wordByte nbits w 2)
    inputs := .quiet :: s.inputs }

end Sys2Proof.Machine
end

