-- ==== Sys2Proof/Machine/Loader.lean ====
section
/-! DEFINITION. The external loader, as its contract (30_encoding.md R94, 70_reset_and_hazards.md R272, R273): the text
lines it reads, the image it makes of them, and the acts it performs on the load port. No step uses this file: it says
which lists of acts a host that keeps its duty puts into `State.inputs`. -/

namespace Sys2Proof.Machine

/-- White space the loader strips (log entry 9). -/
def isBlank (c : Char) : Bool := c == ' ' || c == '\t' || c == '\r' || c == '\n'

/-- A line without its comment (R94). -/
def stripComment (line : List Char) : List Char := line.takeWhile (fun c => c != commentMarker)

/-- A line without the white space at its two ends (R94). That white space between the characters of a token is not
stripped, so that a line such as `1000 0010` is malformed (`parseLine`), is DESIGN CHOICE (log entry 9): the spec says only
that white space is stripped. -/
def stripBlanks (line : List Char) : List Char :=
  ((line.dropWhile isBlank).reverse.dropWhile isBlank).reverse

/-- The number of a token of binary digits, most significant first; none if a character is no binary digit. -/
def binaryValue : Nat → List Char → Option Nat
  | acc, [] => some acc
  | acc, c :: cs =>
    if c = '0' then binaryValue (2 * acc) cs
    else if c = '1' then binaryValue (2 * acc + 1) cs
    else none

/-- What one line of the loader's input is. -/
inductive LoaderLine where
  /-- Nothing but white space and a comment: skipped. -/
  | blank
  /-- A byte of the image. -/
  | byte (v : Byte)
  /-- A token that is no base-2 integer in [0, 255]. -/
  | malformed
deriving DecidableEq, Repr

/-- Reading one line (R94). -/
def parseLine (line : List Char) : LoaderLine :=
  let token := stripBlanks (stripComment line)
  if token.isEmpty then .blank
  else
    match binaryValue 0 token with
    | some n => if n < 256 then .byte (BitVec.ofNat 8 n) else .malformed
    | none => .malformed

/-- The image a list of lines gives; none if a line is malformed (R94). -/
def parseImage : List (List Char) → Option (List Byte)
  | [] => some []
  | l :: ls =>
    match parseLine l with
    | .blank => parseImage ls
    | .byte v => (parseImage ls).map (fun image => v :: image)
    | .malformed => none

/-- The image fits the memory (R273). -/
def imageFits (image : List Byte) : Bool := decide (image.length ≤ memSize)

/-- The writes of an image from an address on, "contiguously" (R94, R272). They end with the first write that fails, at
address `MEM_SIZE` (R273), so no address wraps (R64) on the 8-bit `load_addr` pin (R111). That the loader makes no act after
the failing write is DESIGN CHOICE (log entry 12): the spec says only that the load has failed. -/
def loadEventsFrom (addr : Nat) : List Byte → List HostInput
  | [] => []
  | v :: image => .load (BitVec.ofNat 8 addr) v :: if inMemory addr then loadEventsFrom (addr + 1) image else []

/-- The writes of an image from address 0. -/
def loadEvents (image : List Byte) : List HostInput := loadEventsFrom 0 image

/-- The boot of an image: every write, then `start` (R272). The block ignores the start after a failed write (R113). -/
def bootEvents (image : List Byte) : List HostInput := loadEvents image ++ [.start]

/-- What a loader that keeps its duty does with its input (R94, R113, R272): a malformed line writes nothing and starts
nothing; an image that does not fit is written up to the write that fails (log entry 12) and not started; a good image is
written and started. -/
def loaderEvents (lines : List (List Char)) : List HostInput :=
  match parseImage lines with
  | none => []
  | some image => if imageFits image then bootEvents image else loadEvents image

end Sys2Proof.Machine
end

