-- ==== Sys2Proof/Machine/Statements.lean ====
section
/-! DEFINITION. The statements of a step, and the fault they raise, for claims to speak of: the state at the `raise` stands
between the step's beginning and its fault entry (00_scope.md R20, 60_exceptions.md R242, R244). No step uses this file. -/

namespace Sys2Proof.Machine

/-- The statements of each instruction's rule, in the order written (R20). -/
def statementsOf : Instr → Act Unit
  | .hlt => hltInstr
  | .ret => retInstr
  | .push a => pushInstr a
  | .pop a => popInstr a
  | .prn a => prnInstr a
  | .call a => callInstr a
  | .jmp a => jumpToReg a
  | .jeq a => jumpIf isEqual a
  | .jne a => jumpIf (fun f => !isEqual f) a
  | .not a => notInstr a
  | .ldi a imm => ldiInstr a imm
  | .add a b => aluInstr .add a b
  | .sub a b => aluInstr .sub a b
  | .mul a b => aluInstr .mul a b
  | .mod a b => aluInstr .mod a b
  | .cmp a b => aluInstr .cmp a b
  | .and a b => aluInstr .and a b
  | .or a b => aluInstr .or a b
  | .xor a b => aluInstr .xor a b
  | .shl a b => aluInstr .shl a b
  | .shr a b => aluInstr .shr a b

/-- What a step in RUNNING raises, in the order of R244: the fault, the opcode byte read before it (0 if that read itself
raised), and the state at the raise. None if the step completes. -/
def State.raised (s : State) : Option (FaultCause × Byte × State) :=
  match fetchOpcode s.afterInput with
  | .error f u => some (f, 0, u)
  | .ok op s1 =>
    match fetchOperands s1 with
    | .error f u => some (f, op, u)
    | .ok (a, b) s2 =>
      match decode s2.params.aluDecodeSet op a b with
      | .unknown o => some (.unknownOpcode o, op, s2)
      | .instr i =>
        match statementsOf i s2 with
        | .error f u => some (f, op, u)
        | .ok _ _ => none

end Sys2Proof.Machine
end

