-- ==== Sys2Proof/Safety.lean ====
section
/-! DEFINITION. The terms claims are stated in: runs and how they end (70_reset_and_hazards.md R284, R285), the invariant of the
states a run can reach, when a register read raises, which instruction a step executes, and what a frame keeps. -/

namespace Sys2Proof.Machine

/-- `k` steps of the block. -/
def runSteps : Nat → State → Host.Outcome State Fault Refusal
  | 0, s => .next s
  | k + 1, s =>
    match step s with
    | .next t => runSteps k t
    | .fault f => .fault f
    | .refused r => .refused r

/-- How a run stands at a state (R284, R285). The definition of R284 says nothing of IDLE (log entry 13). -/
inductive RunEnd where
  /-- The successful end. -/
  | halted
  /-- The failure end: never a success. -/
  | faulted
  /-- No end reached, or in IDLE no run in progress: never to be reported as a halt. -/
  | noEnd
deriving DecidableEq, Repr

/-- How the run that reached this state stands. DESIGN CHOICE (log entry 13): IDLE, where a run never started or a reset
ended it, counts as no end; R284 does not say how it stands. -/
def State.runEnd (s : State) : RunEnd :=
  match s.ctrl with
  | .halted => .halted
  | .faulted => .faulted
  | .idle => .noEnd
  | .running => .noEnd

/-- A run of `k` steps that meets no fault: the premise of a claim about a program (R284). -/
def safeFor (k : Nat) (s : State) : Prop := ∀ j t, j ≤ k → runSteps j s = .next t → t.runEnd ≠ .faulted

/-- FL holds 0b000 or one of the three codes (R37). -/
def State.flLegal (s : State) : Bool := s.fl == 0 || s.fl == flEqual || s.fl == flGreater || s.fl == flLess

/-- The fault registers agree with STATE (R41, R242, R246): all zero unless FAULTED; in FAULTED a cause of a program, at
the program counter's own address, code 5 under `Unwritten` only, code 6 under `Modulo` only, and the address of a memory
fault 255 (R241). -/
def State.faultRegsOk (s : State) : Bool :=
  if s.ctrl = .faulted then
    s.faultPc == s.pc &&
      (s.faultCause == 1 || s.faultCause == 3 || s.faultCause == 4 ||
        (s.faultCause == 5 && s.params.regResetPolicy == .unwritten) ||
        (s.faultCause == 6 && s.params.modSemantics == .modulo)) &&
      (s.faultCause != 3 || s.faultValue == 255)
  else s.faultCause == 0 && s.faultPc == 0 && s.faultOp == 0 && s.faultValue == 0

/-- In IDLE nothing has run yet: PC is 0, FL clear, OUT empty, and a failed load keeps the block there (R100, R113). -/
def State.idleOk (s : State) : Bool :=
  if s.ctrl = .idle then s.pc == 0 && s.fl == 0 && s.out.isEmpty else !s.loadErr

/-- The invariant: memory in canonical form, FL legal, the stack pointer valid (R33, R34), the fault registers and IDLE as
the rules say. -/
def State.inv (s : State) : Bool :=
  s.mem.wf && s.flLegal && s.isValid spIndex && s.faultRegsOk && s.idleOk

/-! ### What a register read raises -/

/-- The fault a read `x[r]` raises, if any: the index first (R32), then, under `Unwritten`, the validity bit (R33, R244). -/
def State.readFault (s : State) (r : Byte) : Option FaultCause :=
  if 8 ≤ r.toNat then some (.regOutOfRange r)
  else if s.params.regResetPolicy = .unwritten ∧ s.isValid r = false then some (.unwrittenRegisterRead r)
  else none

/-! ### What a step executes -/

/-- What the three bytes at the program counter decode to (R102). -/
def State.decoded (s : State) : Decoded :=
  decode s.params.aluDecodeSet (s.fetchByte 0) (s.fetchByte 1) (s.fetchByte 2)

/-- The state in which the fetched instruction is executed: the host's act read, the latches holding the window. -/
def State.fetched (s : State) : State :=
  s.afterInput.latched (s.fetchByte 0) (s.fetchByte 1) (s.fetchByte 2)

/-- The next step fetches a window that lies in memory: RUNNING, no reset, PC at most 252 (R101, R103). -/
abbrev State.fetches (s : State) : Prop := s.input ≠ .rst ∧ s.ctrl = .running ∧ s.pc.toNat ≤ 252

/-- The next step executes the instruction `i`. -/
abbrev State.executes (s : State) (i : Instr) : Prop := s.fetches ∧ s.decoded = .instr i

/-! ### What a frame keeps -/

/-- The parameters, the load error, the host's later acts and the fetch latches are as before. -/
abbrev restKept (s t : State) : Prop :=
  t.params = s.params ∧ t.loadErr = s.loadErr ∧ t.inputs = s.inputs ∧ t.ir = s.ir ∧ t.opa = s.opa ∧ t.opb = s.opb

/-- Register `r` and its validity bit are as before. -/
abbrev regKept (s t : State) (r : Byte) : Prop := t.x r = s.x r ∧ t.isValid r = s.isValid r

/-- Every byte of memory reads as before. -/
abbrev memKept (s t : State) : Prop := ∀ addr, t.mem.read addr = s.mem.read addr

/-- The four fault registers are as before. -/
abbrev faultRegsKept (s t : State) : Prop :=
  t.faultCause = s.faultCause ∧ t.faultPc = s.faultPc ∧ t.faultOp = s.faultOp ∧ t.faultValue = s.faultValue

/-- STATE and the fault registers are as before, or a fault was taken, which leaves PC where it was. -/
abbrev controlKept (s t : State) : Prop :=
  (t.ctrl = s.ctrl ∧ faultRegsKept s t) ∨ (t.ctrl = .faulted ∧ t.pc = s.pc)

end Sys2Proof.Machine
end

