-- ==== Sys2Proof/WellFormed.lean ====
section
/-! DEFINITION. When an instruction is well formed. Every operand byte is encodable (30_encoding.md R82, R83), so the
only thing an encoding can lack is a decoder that knows it: that depends on `ALU_DECODE_SET` (R14, R85). The second
check is the assembler's (R90, R91): only R0 to R7 can be written. -/

namespace Sys2Proof

/-- The instruction is one the setting of `ALU_DECODE_SET` decodes (R14, R87). -/
def Instr.wf (set : AluDecodeSet) (i : Instr) : Bool := decodedUnder set i.mnemonic

/-- The register index operands of an instruction (R82, R83): not LDI's immediate. -/
def Instr.registerOperands : Instr → List Byte
  | .hlt | .ret => []
  | .push a | .pop a | .prn a | .call a | .jmp a | .jeq a | .jne a | .not a | .ldi a _ => [a]
  | .add a b | .sub a b | .mul a b | .mod a b | .cmp a b => [a, b]
  | .and a b | .or a b | .xor a b | .shl a b | .shr a b => [a, b]

/-- Every register operand names a register R0 to R7: the form the assembler can write (R90, R91). -/
def Instr.writable (i : Instr) : Bool := i.registerOperands.all (fun r => decide (r.toNat < 8))

end Sys2Proof
end

