-- ==== Sys2Proof/Certificates/Slice0/Obligations.lean ====
section
/-! DEFINITION. The statements for the provers, each a rule of the spec or a property that follows from its rules. The terms they
are written in stand in Safety.lean. -/

open Sys2Proof Sys2Proof.Machine

/-! ### Reset, the invariant, totality -/

/-- R270: `rst` in any state gives every piece of state its reset value. R0 to R6 are 0 under `Zero` only; VALID is set for
R7 alone (R33). -/
def Obligations.ResetGivesStatedValues : Prop :=
  ∀ s : State, s.input = .rst →
    ∃ t, step s = .next t ∧ t.ctrl = .idle ∧ t.pc = 0 ∧ t.fl = 0 ∧ t.x 7 = 0xF4 ∧
      (s.params.regResetPolicy = .zero → ∀ r : Byte, r.toNat < 7 → t.x r = 0) ∧
      (∀ r : Byte, r.toNat < 8 → (t.isValid r = true ↔ r = 7)) ∧
      t.faultCause = 0 ∧ t.faultPc = 0 ∧ t.faultOp = 0 ∧ t.faultValue = 0 ∧
      (∀ addr, t.mem.read addr = 0) ∧ t.loadErr = false ∧ t.out = []

/-- The invariant of Safety.lean holds in the reset state under every setting of the parameters. -/
def Obligations.ResetStateMeetsInvariant : Prop :=
  State.reset.inv = true ∧ ∀ p : Params, (State.resetWith p).inv = true

/-- Every step keeps the invariant: memory in canonical form, FL one of its four values (R37), VALID[7] set, the fault
registers zero outside FAULTED and recording a cause a program can raise inside it (R41, R241, R242, R246), IDLE with
nothing run yet and left only without a load error (R100, R113). -/
def Obligations.StepKeepsInvariant : Prop :=
  ∀ s t : State, s.inv = true → step s = .next t → t.inv = true

/-- The model stops on no state: every fatal error of the spec is a next state (R242) and every instruction has its
meaning. -/
def Obligations.StepAlwaysAnswersNextState : Prop :=
  ∀ s : State, ∃ t, step s = .next t

/-! ### Encoding -/

/-- Under any injective opcode map, whatever bytes follow an instruction's encoding, the decoder reads that instruction
back, provided the decode set knows it (R13, R87, R90). -/
def Obligations.DecodeInvertsEncode : Prop :=
  ∀ map : OpcodeMap, Function.Injective map →
    ∀ (set : AluDecodeSet) (i : Instr), i.wf set = true →
      ∀ (rest : List Byte) (op a b : Byte) (tail : List Byte), encodeWith map i ++ rest = op :: a :: b :: tail →
        decodeWith map set op a b = .instr i

/-- R87: the decoder answers the instruction of the active set whose opcode is the byte, else `Unknown`; the operand
bytes never take part. -/
def Obligations.DecodeSelectsByOpcodeAlone : Prop :=
  ∀ (set : AluDecodeSet) (op a b : Byte),
    (∀ m : Mnemonic, decodedUnder set m = true → opcodeMap m = op → decode set op a b = .instr (m.withOperands a b)) ∧
    ((∀ m : Mnemonic, decodedUnder set m = true → opcodeMap m ≠ op) → decode set op a b = .unknown op)

/-- R86, which the spec marks as derived: the top two bits of the opcode give the length, bit 5 marks the ALU operations,
bit 4 the instructions that set PC. The opcode values are decision D1 (log entry 4). -/
def Obligations.OpcodeLayout : Prop :=
  Function.Injective opcodeMap ∧
    ∀ m : Mnemonic,
      m.length = 1 + (opcodeMap m >>> 6).toNat ∧
      ((opcodeMap m).getLsbD 5 = true ↔
        m ∈ [Mnemonic.add, .sub, .mul, .mod, .cmp, .and, .or, .xor, .not, .shl, .shr]) ∧
      ((opcodeMap m).getLsbD 4 = true ↔ m ∈ [Mnemonic.call, .ret, .jmp, .jeq, .jne])

/-- The counts of R88: 243 illegal opcode bytes under `Core`, 235 under `Extended`; 0x00 is one of them. They rest on the
opcode values of decision D1 (log entry 4). -/
def Obligations.IllegalOpcodeCounts : Prop :=
  ((List.range 256).filter (fun n => decide (decode .core (BitVec.ofNat 8 n) 0 0 = .unknown (BitVec.ofNat 8 n)))).length
      = 243 ∧
  ((List.range 256).filter
      (fun n => decide (decode .extended (BitVec.ofNat 8 n) 0 0 = .unknown (BitVec.ofNat 8 n)))).length = 235 ∧
  decode .core 0 0 0 = .unknown 0 ∧ decode .extended 0 0 0 = .unknown 0

/-- The bytes of the window past an instruction's length are ignored (R84): they change nothing in what is decoded. -/
def Obligations.BytesPastLengthAreIgnored : Prop :=
  ∀ (set : AluDecodeSet) (op a b : Byte) (i : Instr), decode set op a b = .instr i →
    (i.mnemonic.length ≤ 2 → ∀ b', decode set op a b' = .instr i) ∧
    (i.mnemonic.length = 1 → ∀ a' b', decode set op a' b' = .instr i)

/-- A word of each format, written out from R85 and R90, decodes to its instruction; SUB's byte is unknown under
`Core`. -/
def Obligations.SampleWordsDecode : Prop :=
  decode .core 0b00000001 0 0 = .instr .hlt ∧
  decode .core 0b01000101 0b00000011 0xEE = .instr (.push 3) ∧
  decode .core 0b01010000 0b00000001 0xEE = .instr (.call 1) ∧
  decode .core 0b10000010 0b00000000 0b00001000 = .instr (.ldi 0 8) ∧
  decode .core 0b10100010 0b00000000 0b00000001 = .instr (.mul 0 1) ∧
  decode .extended 0b10100001 0b00000000 0b00000001 = .instr (.sub 0 1) ∧
  decode .core 0b10100001 0b00000000 0b00000001 = .unknown 0b10100001

/-! ### The step -/

/-- R103: three checked reads at `pc`, `pc + 1`, `pc + 2`, whatever the instruction's length. At 252 and below the window
is read and decoded; above, the step raises MemOutOfRange(255) before decode, with FAULT_OP the opcode byte, or 0 if that
read itself failed. -/
def Obligations.FetchReadsThreeBytesOrFaults : Prop :=
  ∀ s : State, s.input ≠ .rst → s.ctrl = .running →
    (s.pc.toNat ≤ 252 →
      step s = decodeAndExec (s.mem.read s.pc.toNat) (s.mem.read (s.pc.toNat + 1)) (s.mem.read (s.pc.toNat + 2))
        { s with
          inputs := s.inputs.tail
          ir := s.mem.read s.pc.toNat
          opa := s.mem.read (s.pc.toNat + 1)
          opb := s.mem.read (s.pc.toNat + 2) }) ∧
    (253 ≤ s.pc.toNat →
      ∃ t, step s = .next t ∧ t.ctrl = .faulted ∧ t.faultCause = 3 ∧ t.faultValue = 255 ∧ t.faultPc = s.pc ∧
        t.faultOp = (if s.pc.toNat = 255 then 0 else s.mem.read s.pc.toNat) ∧
        t.pc = s.pc ∧ t.regs = s.regs ∧ t.valid = s.valid ∧ t.fl = s.fl ∧ t.mem = s.mem ∧ t.out = s.out)

/-- R104: an opcode byte that decodes to nothing raises UnknownOpcode, after the whole fetch and before any effect. -/
def Obligations.UnknownOpcodeFaultsWithoutEffect : Prop :=
  ∀ (s : State) (op : Byte), s.input ≠ .rst → s.ctrl = .running → s.decoded = .unknown op →
    ∃ t, step s = .next t ∧ t.ctrl = .faulted ∧ t.pc = s.pc ∧ t.regs = s.regs ∧ t.valid = s.valid ∧ t.fl = s.fl ∧
      t.mem = s.mem ∧ t.out = s.out ∧
      (s.pc.toNat ≤ 252 → t.faultCause = 1 ∧ t.faultValue = op.zeroExtend 9 ∧ op = s.fetchByte 0) ∧
      (253 ≤ s.pc.toNat → t.faultCause = 3)

/-- A step runs the decoded instruction (R102, R105): where the bytes at the program counter decode to `i`, the step is
`exec i` in the state with the host's act read and the three latches holding the window. -/
def Obligations.StepExecutesDecodedInstruction : Prop :=
  ∀ (s : State) (i : Instr), s.input ≠ .rst → s.ctrl = .running → s.pc.toNat ≤ 252 →
    decode s.params.aluDecodeSet (s.mem.read s.pc.toNat) (s.mem.read (s.pc.toNat + 1)) (s.mem.read (s.pc.toNat + 2))
        = .instr i →
      step s = exec i
        { s with
          inputs := s.inputs.tail
          ir := s.mem.read s.pc.toNat
          opa := s.mem.read (s.pc.toNat + 1)
          opb := s.mem.read (s.pc.toNat + 2) }

/-- A table word placed by `withFetchWord` in any state whose memory is in canonical form is what the very next step
executes. -/
def Obligations.PlacedWordRunsNext : Prop :=
  ∀ (s : State) (nbits w : Nat) (i : Instr), s.mem.wf = true → decodeTableWord nbits w = some i →
    step (s.withFetchWord nbits w) = exec i (s.withFetchWord nbits w).fetched

/-- R100: STATE changes only as the table says. -/
def Obligations.StateMachineTransitions : Prop :=
  ∀ s t : State, step s = .next t →
    (s.input = .rst → t.ctrl = .idle) ∧
    (s.input ≠ .rst →
      (s.ctrl = .idle → s.input = .start → s.loadErr = false → t.ctrl = .running) ∧
      (s.ctrl = .idle → s.input = .start → s.loadErr = true → t.ctrl = .idle) ∧
      (s.ctrl = .idle → s.input ≠ .start → t.ctrl = .idle) ∧
      (s.executes .hlt → t.ctrl = .halted) ∧
      (s.ctrl = .running → ¬ s.executes .hlt →
        (t.ctrl = .running ∧ faultRegsKept s t) ∨
        (t.ctrl = .faulted ∧ t.faultCause ≠ 0 ∧ t.faultPc = s.pc ∧ t.pc = s.pc)) ∧
      (s.ctrl = .halted → t.ctrl = .halted) ∧
      (s.ctrl = .faulted → t.ctrl = .faulted))

/-- R286: no step clears the fault registers or leaves FAULTED; reset does. HALTED holds every state as well (R250). -/
def Obligations.OnlyResetClearsAFault : Prop :=
  ∀ s t : State, step s = .next t →
    (s.input ≠ .rst → s.ctrl = .faulted ∨ s.ctrl = .halted → t = { s with inputs := s.inputs.tail }) ∧
    (s.input ≠ .rst → s.faultCause ≠ 0 → t.faultCause ≠ 0) ∧
    (s.input = .rst → t.ctrl = .idle ∧ t.faultCause = 0 ∧ t.faultPc = 0 ∧ t.faultOp = 0 ∧ t.faultValue = 0)

/-- The parameters are fixed for the machine, and a step reads exactly one act of the host (the model's own fields, log
entries 5 and 6). -/
def Obligations.StepKeepsParametersAndReadsOneInput : Prop :=
  ∀ s t : State, step s = .next t → t.params = s.params ∧ t.inputs = s.inputs.tail

/-! ### Whole-machine rules -/

/-- R38: only CMP and reset write FL; only JEQ and JNE read it: for any other instruction, changing FL beforehand changes
nothing but FL afterwards. -/
def Obligations.OnlyCmpWritesFlagsOnlyJeqJneReadThem : Prop :=
  (∀ s t : State, step s = .next t → t.fl ≠ s.fl → s.input = .rst ∨ ∃ a b, s.executes (.cmp a b)) ∧
  (∀ (i : Instr) (s t u : State) (fl : BitVec 3), i.mnemonic ≠ .jeq → i.mnemonic ≠ .jne →
    exec i s = .next t → exec i { s with fl := fl } = .next u → { u with fl := t.fl } = t)

/-- A byte of memory changes only by reset, by a load in IDLE at its address, or by PUSH or CALL at the address of the
stack pointer after its decrement (R43, R65, conflict C6). -/
def Obligations.OnlyPushCallAndLoadWriteMemory : Prop :=
  ∀ (s t : State) (addr : Nat), step s = .next t → t.mem.read addr ≠ s.mem.read addr →
    s.input = .rst ∨
    (s.ctrl = .idle ∧ ∃ a d, s.input = .load a d ∧ addr = a.toNat) ∨
    (∃ a, (s.executes (.push a) ∨ s.executes (.call a)) ∧ addr = s.pushAddr)

/-- R114: a completed PRN produces exactly one output event, carrying the register's value; no other step but reset touches
OUT. -/
def Obligations.OnlyPrnProducesOutput : Prop :=
  ∀ s t : State, s.input ≠ .rst → step s = .next t →
    (∀ a, s.executes (.prn a) → s.readFault a = none →
      t.out = s.out ++ [s.x a] ∧ outPort s t = some (s.x a)) ∧
    ((∀ a, s.executes (.prn a) → s.readFault a ≠ none) → t.out = s.out ∧ outPort s t = none)

/-- R107: an instruction that raises writes no PC; CALL, RET and JMP write their target; JEQ and JNE their target or
`pc + 2`; every other advances PC by its length, and the sum never passes 255 in a step. -/
def Obligations.ProgramCounterUpdate : Prop :=
  (∀ m : Mnemonic, m.length =
    if m ∈ [Mnemonic.hlt, .ret] then 1
    else if m ∈ [Mnemonic.prn, .push, .pop, .not, .call, .jmp, .jeq, .jne] then 2 else 3) ∧
  ∀ (s t : State) (i : Instr), s.executes i → step s = .next t →
    s.pc.toNat + i.mnemonic.length ≤ 255 ∧
    (t.ctrl = .faulted → t.pc = s.pc) ∧
    (t.ctrl ≠ .faulted →
      (i.mnemonic ∉ [Mnemonic.call, .ret, .jmp, .jeq, .jne] → t.pc.toNat = s.pc.toNat + i.mnemonic.length) ∧
      (∀ a, i = .call a → t.pc = t.x a) ∧
      (i = .ret → t.pc = s.mem.read s.popAddr) ∧
      (∀ a, i = .jmp a → t.pc = s.x a) ∧
      (∀ a, i = .jeq a → t.pc = if s.fl = 0b001 then s.x a else s.pc + 2) ∧
      (∀ a, i = .jne a → t.pc = if s.fl = 0b001 then s.pc + 2 else s.x a))

/-! ### Faults -/

/-- The codes and values of R241, as fault entry records them (R242). -/
def Obligations.FaultCodesAndValues : Prop :=
  ∀ (s : State) (op b : Byte) (addr : Nat),
    (takeFault (.unknownOpcode b) op s).faultCause = 1 ∧ (takeFault (.unknownOpcode b) op s).faultValue.toNat = b.toNat ∧
    (takeFault (.unsupportedAluOp b) op s).faultCause = 2 ∧
    (takeFault (.unsupportedAluOp b) op s).faultValue.toNat = b.toNat ∧
    (takeFault (.memOutOfRange addr) op s).faultCause = 3 ∧
    (addr < 512 → (takeFault (.memOutOfRange addr) op s).faultValue.toNat = addr) ∧
    (takeFault (.regOutOfRange b) op s).faultCause = 4 ∧ (takeFault (.regOutOfRange b) op s).faultValue.toNat = b.toNat ∧
    (takeFault (.unwrittenRegisterRead b) op s).faultCause = 5 ∧
    (takeFault (.unwrittenRegisterRead b) op s).faultValue.toNat = b.toNat ∧
    (takeFault (.modByZero b) op s).faultCause = 6 ∧ (takeFault (.modByZero b) op s).faultValue.toNat = b.toNat

/-- R242: fault entry. Where the statements of a step raise `f` in the state `u` (the fetch's, decode's or the instruction's,
`State.raised`), the step leaves `u` with the four fault registers and STATE written and nothing else (registers, VALID, memory
and every other field are those of `u`); what ran before the raise wrote neither PC nor FL nor OUT nor a fault register. Where
nothing is raised no fault is entered. The block performs no further step until reset. -/
def Obligations.FaultEntryRecordsAndStops : Prop :=
  (∀ s : State, s.input ≠ .rst → s.ctrl = .running →
    (∀ (f : FaultCause) (op : Byte) (u : State), s.raised = some (f, op, u) →
      step s = .next { u with
        faultCause := f.code, faultPc := s.pc, faultOp := op, faultValue := f.value, ctrl := .faulted } ∧
      op = (if s.pc.toNat = 255 then 0 else s.mem.read s.pc.toNat) ∧
      u.pc = s.pc ∧ u.fl = s.fl ∧ u.out = s.out ∧ u.ctrl = .running ∧ faultRegsKept s u) ∧
    (s.raised = none → ∃ t, step s = .next t ∧ t.ctrl ≠ .faulted ∧ faultRegsKept s t)) ∧
  (∀ (i : Instr) (s : State),
    (∀ (f : FaultCause) (u : State), statementsOf i s = .error f u →
      exec i s = .next { u with
        faultCause := f.code, faultPc := s.pc, faultOp := s.ir, faultValue := f.value, ctrl := .faulted } ∧
      u.pc = s.pc ∧ u.fl = s.fl ∧ u.out = s.out ∧ u.ctrl = s.ctrl ∧ faultRegsKept s u ∧ restKept s u) ∧
    (∀ u : State, statementsOf i s = .ok () u → exec i s = .next u)) ∧
  (∀ s : State, s.ctrl = .faulted → s.input ≠ .rst → step s = .next { s with inputs := s.inputs.tail })

/-- R243: the faults that leave an effect are PUSH's (R7 decremented) and CALL's (R7 decremented, and the return address
written unless the store itself failed); every other fault, a fetch fault and an unknown opcode among them, changes nothing
but the fault registers and STATE (and the fetch latches, where the fetch has read a byte). -/
def Obligations.FaultsKeepPartialEffects : Prop :=
  (∀ (s t : State), s.input ≠ .rst → s.ctrl = .running →
    (253 ≤ s.pc.toNat ∨ s.decoded = .unknown (s.fetchByte 0)) → step s = .next t →
      t = { s with
        faultCause := t.faultCause, faultPc := s.pc, faultOp := t.faultOp, faultValue := t.faultValue, ctrl := .faulted
        inputs := s.inputs.tail, ir := t.ir, opa := t.opa, opb := t.opb }) ∧
  (∀ (i : Instr) (s t : State), s.ctrl = .running → s.isValid 7 = true → exec i s = .next t → t.ctrl = .faulted →
    (i.mnemonic ≠ .push → i.mnemonic ≠ .call →
      t = { s with
        faultCause := t.faultCause, faultPc := s.pc, faultOp := s.ir, faultValue := t.faultValue, ctrl := .faulted }) ∧
    (i.mnemonic = .push ∨ i.mnemonic = .call →
      t.x 7 = s.x 7 - 1 ∧ t.isValid 7 = true ∧ (∀ r : Byte, r ≠ 7 → regKept s t r) ∧
      t.pc = s.pc ∧ t.fl = s.fl ∧ t.out = s.out ∧ restKept s t) ∧
    (i.mnemonic = .push → t.mem = s.mem) ∧
    (i.mnemonic = .call → s.x 7 = 0 → t.mem = s.mem ∧ t.faultCause = 3 ∧ t.x 7 = 255) ∧
    (i.mnemonic = .call → s.x 7 ≠ 0 → t.mem = s.mem.write (s.x 7 - 1).toNat (s.pc + 2)))

/-- The operand checks of the two-operand ALU instructions (R130, R244): `a` first, then `b`, the index before the validity
bit; nothing is written before either. (MOD has its own statement.) -/
def Obligations.BinaryAluChecksLeftOperandFirst : Prop :=
  ∀ m ∈ [Mnemonic.add, .sub, .mul, .cmp, .and, .or, .xor, .shl, .shr], ∀ (a b : Byte) (s : State) (f : FaultCause),
    (s.readFault a = some f → exec (m.withOperands a b) s = .next (takeFault f s.ir s)) ∧
    (s.readFault a = none → s.readFault b = some f → exec (m.withOperands a b) s = .next (takeFault f s.ir s))

/-- R142: the ALU given any other operation raises UnsupportedAluOp before it reads a register; no instruction raises it. -/
def Obligations.UnsupportedAluOperation : Prop :=
  (∀ (op a b : Byte) (s : State),
    (∀ m ∈ [Mnemonic.add, .sub, .mul, .mod, .cmp, .and, .or, .xor, .not, .shl, .shr], opcodeMap m ≠ op) →
      alu op a b s = .error (.unsupportedAluOp op) s) ∧
  (∀ (i : Instr) (s t : State), s.ctrl = .running → exec i s = .next t → t.ctrl = .faulted → t.faultCause ≠ 2)

/-! ### ALU instructions -/

/-- R131: ADD leaves the sum modulo 256, FL unchanged. -/
def Obligations.AddResult : Prop :=
  ∀ (a b : Byte) (s : State), s.readFault a = none → s.readFault b = none →
    ∃ v : Byte, v.toNat = ((s.x a).toNat + (s.x b).toNat) % 256 ∧
      alu (opcodeMap .add) a b s = .ok () (s.setX a v) ∧
      exec (.add a b) s = .next { s.setX a v with pc := s.pc + 3 }

/-- R132: SUB leaves the difference modulo 256, FL unchanged. -/
def Obligations.SubResult : Prop :=
  ∀ (a b : Byte) (s : State), s.readFault a = none → s.readFault b = none →
    ∃ v : Byte,
      v.toNat = (if (s.x b).toNat ≤ (s.x a).toNat then (s.x a).toNat - (s.x b).toNat
        else (s.x a).toNat + 256 - (s.x b).toNat) ∧
      alu (opcodeMap .sub) a b s = .ok () (s.setX a v) ∧
      exec (.sub a b) s = .next { s.setX a v with pc := s.pc + 3 }

/-- R133: MUL leaves the low 8 bits of the unsigned product, FL unchanged. -/
def Obligations.MulResult : Prop :=
  ∀ (a b : Byte) (s : State), s.readFault a = none → s.readFault b = none →
    ∃ v : Byte, v.toNat = (s.x a).toNat * (s.x b).toNat % 256 ∧
      alu (opcodeMap .mul) a b s = .ok () (s.setX a v) ∧
      exec (.mul a b) s = .next { s.setX a v with pc := s.pc + 3 }

/-- R135: CMP sets exactly one bit of FL by the unsigned comparison and changes no register; no other ALU operation writes
FL. -/
def Obligations.CmpResult : Prop :=
  (∀ (a b : Byte) (s : State), s.readFault a = none → s.readFault b = none →
    ∃ fl : BitVec 3,
      ((s.x a).toNat = (s.x b).toNat → fl = 0b001) ∧ ((s.x a).toNat < (s.x b).toNat → fl = 0b100) ∧
      ((s.x b).toNat < (s.x a).toNat → fl = 0b010) ∧
      alu (opcodeMap .cmp) a b s = .ok () { s with fl := fl } ∧
      exec (.cmp a b) s = .next { s with fl := fl, pc := s.pc + 3 }) ∧
  (∀ (op a b : Byte) (s t : State), op ≠ opcodeMap .cmp → alu op a b s = .ok () t → t.fl = s.fl)

/-- R136, R137, R138: AND, OR and XOR work bit by bit, FL unchanged. -/
def Obligations.BitwiseResults : Prop :=
  ∀ (a b : Byte) (s : State), s.readFault a = none → s.readFault b = none →
    (∃ v : Byte, (∀ k, v.getLsbD k = ((s.x a).getLsbD k && (s.x b).getLsbD k)) ∧
      alu (opcodeMap .and) a b s = .ok () (s.setX a v) ∧
      exec (.and a b) s = .next { s.setX a v with pc := s.pc + 3 }) ∧
    (∃ v : Byte, (∀ k, v.getLsbD k = ((s.x a).getLsbD k || (s.x b).getLsbD k)) ∧
      alu (opcodeMap .or) a b s = .ok () (s.setX a v) ∧
      exec (.or a b) s = .next { s.setX a v with pc := s.pc + 3 }) ∧
    (∃ v : Byte, (∀ k, v.getLsbD k = ((s.x a).getLsbD k ^^ (s.x b).getLsbD k)) ∧
      alu (opcodeMap .xor) a b s = .ok () (s.setX a v) ∧
      exec (.xor a b) s = .next { s.setX a v with pc := s.pc + 3 })

/-- R139: NOT leaves `255 - d`; `src` is neither read nor checked. The instruction (R165) faults on a bad `a`. -/
def Obligations.NotResult : Prop :=
  ∀ (a src : Byte) (s : State),
    (s.readFault a = none → ∃ v : Byte, v.toNat = 255 - (s.x a).toNat ∧
      alu (opcodeMap .not) a src s = .ok () (s.setX a v) ∧
      exec (.not a) s = .next { s.setX a v with pc := s.pc + 2 }) ∧
    (∀ f, s.readFault a = some f → exec (.not a) s = .next (takeFault f s.ir s))

/-- R140: SHL is a logical left shift by 0 to 255 positions; a count of 8 or more gives 0. FL is unchanged. -/
def Obligations.ShlResult : Prop :=
  ∀ (a b : Byte) (s : State), s.readFault a = none → s.readFault b = none →
    ∃ v : Byte, v.toNat = (s.x a).toNat * 2 ^ (s.x b).toNat % 256 ∧
      (s.x b = 0 → v = s.x a) ∧ (8 ≤ (s.x b).toNat → v = 0) ∧
      alu (opcodeMap .shl) a b s = .ok () (s.setX a v) ∧
      exec (.shl a b) s = .next { s.setX a v with pc := s.pc + 3 }

/-- R141: SHR is a logical right shift by 0 to 255 positions; a count of 8 or more gives 0. FL is unchanged. -/
def Obligations.ShrResult : Prop :=
  ∀ (a b : Byte) (s : State), s.readFault a = none → s.readFault b = none →
    ∃ v : Byte, v.toNat = (s.x a).toNat / 2 ^ (s.x b).toNat ∧
      (s.x b = 0 → v = s.x a) ∧ (8 ≤ (s.x b).toNat → v = 0) ∧
      alu (opcodeMap .shr) a b s = .ok () (s.setX a v) ∧
      exec (.shr a b) s = .next { s.setX a v with pc := s.pc + 3 }

/-- R134: MOD under `Noop` reads, writes and checks nothing; under `Modulo` it leaves the remainder, and a zero divisor
raises ModByZero. -/
def Obligations.ModFollowsItsSemantics : Prop :=
  ∀ (a b : Byte) (s : State),
    (s.params.modSemantics = .noop →
      alu (opcodeMap .mod) a b s = .ok () s ∧ exec (.mod a b) s = .next { s with pc := s.pc + 3 }) ∧
    (s.params.modSemantics = .modulo →
      (∀ f, s.readFault a = some f → exec (.mod a b) s = .next (takeFault f s.ir s)) ∧
      (∀ f, s.readFault a = none → s.readFault b = some f → exec (.mod a b) s = .next (takeFault f s.ir s)) ∧
      (s.readFault a = none → s.readFault b = none → s.x b = 0 →
        alu (opcodeMap .mod) a b s = .error (.modByZero b) s ∧
        exec (.mod a b) s = .next (takeFault (.modByZero b) s.ir s)) ∧
      (s.readFault a = none → s.readFault b = none → s.x b ≠ 0 →
        ∃ v : Byte, v.toNat = (s.x a).toNat % (s.x b).toNat ∧
          alu (opcodeMap .mod) a b s = .ok () (s.setX a v) ∧
          exec (.mod a b) s = .next { s.setX a v with pc := s.pc + 3 }))

/-- R143, the case `dest = src`: SUB and XOR give 0, AND and OR leave the register, ADD doubles it, CMP gives EQUAL. -/
def Obligations.SameRegisterOperands : Prop :=
  ∀ (a : Byte) (s : State), s.readFault a = none →
    exec (.sub a a) s = .next { s.setX a 0 with pc := s.pc + 3 } ∧
    exec (.xor a a) s = .next { s.setX a 0 with pc := s.pc + 3 } ∧
    exec (.and a a) s = .next { s.setX a (s.x a) with pc := s.pc + 3 } ∧
    exec (.or a a) s = .next { s.setX a (s.x a) with pc := s.pc + 3 } ∧
    exec (.add a a) s = .next { s.setX a (2 * s.x a) with pc := s.pc + 3 } ∧
    exec (.cmp a a) s = .next { s with fl := 0b001, pc := s.pc + 3 }

/-! ### Load immediate, print, stack, control transfer, halt -/

/-- R180: LDI. -/
def Obligations.LdiRule : Prop :=
  ∀ (a imm : Byte) (s : State),
    encode (.ldi a imm) = [0x82, a, imm] ∧
    (a.toNat < 8 → exec (.ldi a imm) s = .next { s.setX a imm with pc := s.pc + 3 }) ∧
    (8 ≤ a.toNat → exec (.ldi a imm) s = .next (takeFault (.regOutOfRange a) s.ir s))

/-- R181: PRN. -/
def Obligations.PrnRule : Prop :=
  ∀ (a : Byte) (s : State),
    encode (.prn a) = [0x47, a] ∧
    (s.readFault a = none → exec (.prn a) s = .next { s with out := s.out ++ [s.x a], pc := s.pc + 2 }) ∧
    (∀ f, s.readFault a = some f → exec (.prn a) s = .next (takeFault f s.ir s))

/-- R190: PUSH. The stack pointer is decremented first, so `PUSH R7` pushes the decremented value and a fault leaves R7
decremented. -/
def Obligations.PushRule : Prop :=
  ∀ (a : Byte) (s u : State), s.readFault 7 = none → u = s.setX 7 (s.x 7 - 1) →
    encode (.push a) = [0x45, a] ∧
    (u.readFault a = none → s.x 7 ≠ 0 →
      exec (.push a) s = .next { u with mem := s.mem.write (s.x 7 - 1).toNat (u.x a), pc := s.pc + 2 }) ∧
    (∀ f, u.readFault a = some f → exec (.push a) s = .next (takeFault f s.ir u)) ∧
    (u.readFault a = none → s.x 7 = 0 → exec (.push a) s = .next (takeFault (.memOutOfRange 255) s.ir u)) ∧
    u.x 7 = s.x 7 - 1 ∧ ∀ r : Byte, r ≠ 7 → u.x r = s.x r

/-- R191: POP. The register is written before the stack pointer is incremented, so `POP R7` ends as the popped value plus
one; the stack address is checked before the index. -/
def Obligations.PopRule : Prop :=
  ∀ (a : Byte) (s u : State), s.readFault 7 = none → u = s.setX a (s.mem.read (s.x 7).toNat) →
    encode (.pop a) = [0x46, a] ∧
    (s.x 7 ≠ 255 → a.toNat < 8 → exec (.pop a) s = .next { u.setX 7 (u.x 7 + 1) with pc := s.pc + 2 }) ∧
    (s.x 7 = 255 → exec (.pop a) s = .next (takeFault (.memOutOfRange 255) s.ir s)) ∧
    (s.x 7 ≠ 255 → 8 ≤ a.toNat → exec (.pop a) s = .next (takeFault (.regOutOfRange a) s.ir s)) ∧
    (a = 7 → u.x 7 = s.mem.read (s.x 7).toNat) ∧ (a ≠ 7 → u.x 7 = s.x 7)

/-- R200: CALL. The stack address is checked before the register index, and the target is read after the push. -/
def Obligations.CallRule : Prop :=
  ∀ (a : Byte) (s u w : State), s.readFault 7 = none → u = s.setX 7 (s.x 7 - 1) →
    w = { u with mem := s.mem.write (s.x 7 - 1).toNat (s.pc + 2) } →
    encode (.call a) = [0x50, a] ∧
    (s.x 7 ≠ 0 → u.readFault a = none → exec (.call a) s = .next { w with pc := u.x a }) ∧
    (s.x 7 = 0 → exec (.call a) s = .next (takeFault (.memOutOfRange 255) s.ir u)) ∧
    (s.x 7 ≠ 0 → ∀ f, u.readFault a = some f → exec (.call a) s = .next (takeFault f s.ir w))

/-- R201: RET. -/
def Obligations.RetRule : Prop :=
  ∀ s : State, s.readFault 7 = none →
    encode .ret = [0x11] ∧
    (s.x 7 ≠ 255 →
      exec .ret s = .next { s.setX 7 (s.x 7 + 1) with pc := s.mem.read (s.x 7).toNat }) ∧
    (s.x 7 = 255 → exec .ret s = .next (takeFault (.memOutOfRange 255) s.ir s))

/-- R205: JMP. -/
def Obligations.JmpRule : Prop :=
  ∀ (a : Byte) (s : State),
    encode (.jmp a) = [0x54, a] ∧
    (s.readFault a = none → exec (.jmp a) s = .next { s with pc := s.x a }) ∧
    (∀ f, s.readFault a = some f → exec (.jmp a) s = .next (takeFault f s.ir s))

/-- R206: JEQ is taken exactly when FL is EQUAL; not taken it does not read `x[a]`. -/
def Obligations.JeqRule : Prop :=
  ∀ (a : Byte) (s : State),
    encode (.jeq a) = [0x55, a] ∧
    (s.fl = 0b001 → s.readFault a = none → exec (.jeq a) s = .next { s with pc := s.x a }) ∧
    (s.fl ≠ 0b001 → exec (.jeq a) s = .next { s with pc := s.pc + 2 }) ∧
    (s.fl = 0b001 → ∀ f, s.readFault a = some f → exec (.jeq a) s = .next (takeFault f s.ir s))

/-- R207: JNE is taken exactly when FL is not EQUAL; not taken it does not read `x[a]`. -/
def Obligations.JneRule : Prop :=
  ∀ (a : Byte) (s : State),
    encode (.jne a) = [0x56, a] ∧
    (s.fl ≠ 0b001 → s.readFault a = none → exec (.jne a) s = .next { s with pc := s.x a }) ∧
    (s.fl = 0b001 → exec (.jne a) s = .next { s with pc := s.pc + 2 }) ∧
    (s.fl ≠ 0b001 → ∀ f, s.readFault a = some f → exec (.jne a) s = .next (takeFault f s.ir s))

/-- R220, R108: HLT enters HALTED with PC past it; nothing is fetched after it; above 252 it never executes. -/
def Obligations.HltRule : Prop :=
  encode .hlt = [0x01] ∧
  (∀ s : State, exec .hlt s = .next { s with ctrl := .halted, pc := s.pc + 1 }) ∧
  (∀ s t : State, s.executes .hlt → step s = .next t → t.input ≠ .rst →
    step t = .next { t with inputs := t.inputs.tail }) ∧
  (∀ s t : State, s.input ≠ .rst → s.ctrl = .running → 253 ≤ s.pc.toNat → step s = .next t →
    t.ctrl = .faulted ∧ t.faultCause = 3)

/-! ### Laws over several steps -/

/-- R192, which the spec marks as derived: for registers other than R7, a PUSH and then a POP copy the register and restore
the stack pointer; the POP does not erase the cell. -/
def Obligations.PushThenPopCopiesRegister : Prop :=
  ∀ (r r2 : Byte) (s : State), r ≠ 7 → r2 ≠ 7 → r2.toNat < 8 → s.readFault r = none → s.readFault 7 = none →
    s.x 7 ≠ 0 → s.mem.wf = true →
    ∃ t u, exec (.push r) s = .next t ∧ exec (.pop r2) t = .next u ∧ u.x r2 = s.x r ∧ u.x 7 = s.x 7 ∧
      u.mem.read s.pushAddr = s.x r ∧ u.pc = s.pc + 4

/-- R202, which the spec marks as derived: if the code between leaves R7 and MEM[R7] as the CALL left them, the RET comes back
to the instruction after the CALL with the stack pointer as before it. -/
def Obligations.CallThenRetReturns : Prop :=
  ∀ (a : Byte) (s t u : State), s.readFault 7 = none → s.readFault a = none → s.x 7 ≠ 0 → s.mem.wf = true →
    exec (.call a) s = .next t → u.readFault 7 = none → u.x 7 = t.x 7 →
    u.mem.read (t.x 7).toNat = t.mem.read (t.x 7).toNat →
    ∃ w, exec .ret u = .next w ∧ w.pc = s.pc + 2 ∧ w.x 7 = s.x 7

/-! ### Frames -/

/-- The frame of the instructions that write one register, LDI and the register-writing ALU instructions: whatever next state
they answer, only register `a`, its validity bit and PC may differ, and STATE with the fault registers if a fault was taken.
MOD under `Noop` leaves `a` as well. -/
def Obligations.RegisterWritingFrame : Prop :=
  ∀ m ∈ [Mnemonic.ldi, .add, .sub, .mul, .mod, .and, .or, .xor, .not, .shl, .shr], ∀ (a b : Byte) (s t : State),
    exec (m.withOperands a b) s = .next t →
      (∀ r : Byte, r ≠ a → regKept s t r) ∧ (m = .mod → s.params.modSemantics = .noop → regKept s t a) ∧
      memKept s t ∧ t.fl = s.fl ∧ t.out = s.out ∧ restKept s t ∧ controlKept s t

/-- The frame of the instructions that write no register and no memory: CMP (FL), PRN (OUT), JMP, JEQ, JNE, HLT (STATE). -/
def Obligations.NoRegisterFrame : Prop :=
  ∀ m ∈ [Mnemonic.cmp, .prn, .jmp, .jeq, .jne, .hlt], ∀ (a b : Byte) (s t : State),
    exec (m.withOperands a b) s = .next t →
      (∀ r : Byte, regKept s t r) ∧ memKept s t ∧ (m ≠ .cmp → t.fl = s.fl) ∧ (m ≠ .prn → t.out = s.out) ∧
      restKept s t ∧ (m ≠ .hlt → controlKept s t) ∧ (m = .hlt → faultRegsKept s t)

/-- The frame of the instructions that store through the stack, PUSH and CALL: of the registers only R7 (which they
decrement), of memory only the byte at the stack pointer after its decrement. -/
def Obligations.StackStoreFrame : Prop :=
  ∀ m ∈ [Mnemonic.push, .call], ∀ (a b : Byte) (s t : State), exec (m.withOperands a b) s = .next t →
    (∀ r : Byte, r ≠ 7 → regKept s t r) ∧
    (∀ addr, addr ≠ s.pushAddr → t.mem.read addr = s.mem.read addr) ∧
    t.fl = s.fl ∧ t.out = s.out ∧ restKept s t ∧ controlKept s t

/-- The frame of the instructions that load through the stack, POP (registers `a` and R7) and RET (R7): they store nothing. -/
def Obligations.StackLoadFrame : Prop :=
  (∀ (a : Byte) (s t : State), exec (.pop a) s = .next t →
    (∀ r : Byte, r ≠ a → r ≠ 7 → regKept s t r) ∧ memKept s t ∧ t.fl = s.fl ∧ t.out = s.out ∧ restKept s t ∧
    controlKept s t) ∧
  (∀ s t : State, exec .ret s = .next t →
    (∀ r : Byte, r ≠ 7 → regKept s t r) ∧ memKept s t ∧ t.fl = s.fl ∧ t.out = s.out ∧ restKept s t ∧ controlKept s t)

/-! ### The host's side -/

/-- R272: from reset, the loader's acts write the image at 0, 1, 2, ... and the start enters RUNNING at PC = 0 with exactly
that image in memory; after a malformed line nothing is written and nothing starts. That the acts come one a step, how a line
is read, and how a program comes to run from reset are the model's (log entries 5, 9 and 10). -/
def Obligations.BootRunsLoadedImage : Prop :=
  (∀ (p : Params) (lines : List (List Char)) (image : List Byte), parseImage lines = some image → image.length ≤ 255 →
    ∃ t, runSteps (image.length + 1) { State.resetWith p with inputs := loaderEvents lines } = .next t ∧
      t.ctrl = .running ∧ t.loadErr = false ∧ t.inputs = [] ∧ t.mem.wf = true ∧
      (∀ k, t.mem.read k = image.getD k 0) ∧
      t = { State.resetWith p with ctrl := .running, mem := t.mem }) ∧
  (∀ (p : Params) (lines : List (List Char)) (k : Nat), parseImage lines = none →
    runSteps k { State.resetWith p with inputs := loaderEvents lines } = .next (State.resetWith p))

/-- An image longer than memory is a failed load (R273, R113): its first 255 bytes are written, the write at 255 sets
`load_err`, and the block stays in IDLE, whether the host keeps its duty (R94) or asserts `start` all the same. That the loader
makes no act after the failing write is the model's choice (log entry 12), as is one act a step (log entry 5). -/
def Obligations.OverlongImageNeverStarts : Prop :=
  ∀ (p : Params) (image : List Byte), 255 < image.length →
    ∃ m : Memory, m.wf = true ∧ (∀ k, m.read k = if k < 255 then image.getD k 0 else 0) ∧
      (∀ k, runSteps (257 + k) { State.resetWith p with inputs := bootEvents image }
        = .next { State.resetWith p with mem := m, loadErr := true }) ∧
      ∀ lines, parseImage lines = some image →
        ∀ k, runSteps (256 + k) { State.resetWith p with inputs := loaderEvents lines }
          = .next { State.resetWith p with mem := m, loadErr := true }

/-- R113: a load writes memory in IDLE only, with `load_err` for an address outside it; a start acts in IDLE only and is
ignored after a load error; in RUNNING both are ignored; the inspection ports are valid outside RUNNING only. `dbg_mem` at 255 reads 0 (R111). That an
act is one list entry a step is log entry 5; that an inspection port gives no value in RUNNING, where the spec calls the value
unspecified, is log entry 7. -/
def Obligations.HostAccessByState : Prop :=
  ∀ (s : State) (addr data : Byte) (rest : List HostInput),
    (s.inputs = .load addr data :: rest →
      (s.ctrl = .idle → addr.toNat < 255 →
        step s = .next { s with inputs := rest, mem := s.mem.write addr.toNat data }) ∧
      (s.ctrl = .idle → addr.toNat = 255 → step s = .next { s with inputs := rest, loadErr := true })) ∧
    (s.inputs = .start :: rest →
      (s.ctrl = .idle → s.loadErr = false → step s = .next { s with inputs := rest, ctrl := .running }) ∧
      (s.ctrl = .idle → s.loadErr = true → step s = .next { s with inputs := rest })) ∧
    (s.inputs = .load addr data :: rest ∨ s.inputs = .start :: rest →
      (s.ctrl = .running → step s = step { s with inputs := .quiet :: rest }) ∧
      (s.ctrl = .halted ∨ s.ctrl = .faulted → step s = .next { s with inputs := rest })) ∧
    (s.ctrl ≠ .running →
      dbgPc s = some s.pc ∧ dbgFl s = some s.fl ∧
      (addr.toNat < 255 → dbgMem addr s = some (s.mem.read addr.toNat)) ∧ (addr.toNat = 255 → dbgMem addr s = some 0) ∧
      ∀ sel : BitVec 3, s.readFault (sel.zeroExtend 8) = none → dbgReg sel s = some (s.x (sel.zeroExtend 8))) ∧
    (s.ctrl = .running →
      dbgPc s = none ∧ dbgFl s = none ∧ dbgMem addr s = none ∧ ∀ sel : BitVec 3, dbgReg sel s = none)

/-- The loader's line (R94), with or without a comment after it: eight binary digits, white space around them, give their
byte, and so does any other run of binary digits whose value fits; a larger value, or a character that is neither a binary
digit nor white space, is malformed; white space alone is skipped. White space, the marker and runs of other lengths are the
model's (log entry 9). -/
def Obligations.LoaderLineGivesItsByte : Prop :=
  ∀ pre post tail : List Char, pre.all isBlank = true → post.all isBlank = true →
    (tail = [] ∨ ∃ comment, tail = '#' :: comment) →
    (∀ v : Byte,
      parseLine (pre ++ (List.range 8).map (fun k => if v.getLsbD (7 - k) then '1' else '0') ++ post ++ tail) = .byte v) ∧
    (∀ bits : List Bool, bits ≠ [] →
      parseLine (pre ++ bits.map (fun d => if d then '1' else '0') ++ post ++ tail) =
        if bits.foldl (fun n d => 2 * n + d.toNat) 0 < 256
        then .byte (BitVec.ofNat 8 (bits.foldl (fun n d => 2 * n + d.toNat) 0)) else .malformed) ∧
    (∀ line : List Char, '#' ∉ line → (∃ c ∈ line, isBlank c = false ∧ c ≠ '0' ∧ c ≠ '1') →
      parseLine (line ++ tail) = .malformed) ∧
    parseLine (pre ++ tail) = .blank

/-! ### Registers and memory -/

/-- The register primitives (R31, R32, R33): a write is read back and touches no other register; an index of 8 or more
raises; an unwritten register raises under `Unwritten` only. -/
def Obligations.RegisterAccess : Prop :=
  ∀ (s : State) (i v : Byte),
    (i.toNat < 8 →
      writeReg i v s = .ok () (s.setX i v) ∧ (s.setX i v).x i = v ∧ (s.setX i v).readFault i = none ∧
      (∀ r : Byte, r ≠ i → regKept s (s.setX i v) r) ∧
      (s.params.regResetPolicy = .zero → readReg i s = .ok (s.x i) s) ∧
      (s.isValid i = true → readReg i s = .ok (s.x i) s) ∧
      (s.params.regResetPolicy = .unwritten → s.isValid i = false →
        readReg i s = .error (.unwrittenRegisterRead i) s)) ∧
    (8 ≤ i.toNat →
      writeReg i v s = .error (.regOutOfRange i) s ∧ readReg i s = .error (.regOutOfRange i) s)

/-- R62, R63: MemRead and MemWrite, bounds-checked on the natural number; a write changes one cell only and keeps the
memory's canonical form. -/
def Obligations.MemoryAccess : Prop :=
  ∀ (s : State) (addr : Nat) (v : Byte), s.mem.wf = true →
    (addr < 255 →
      memRead addr s = .ok (s.mem.read addr) s ∧
      ∃ m : Memory, memWrite addr v s = .ok () { s with mem := m } ∧ m.wf = true ∧ m.read addr = v ∧
        ∀ b, b ≠ addr → m.read b = s.mem.read b) ∧
    (255 ≤ addr →
      memRead addr s = .error (.memOutOfRange addr) s ∧ memWrite addr v s = .error (.memOutOfRange addr) s)

/-! ### The loader's image -/

/-- The image of the loader's lines (R94): one malformed line and there is none; else the bytes of the lines in order, blank
lines skipped. A load failure of either kind makes no `start`. How a line is read is the model's (log entry 9). -/
def Obligations.LoaderImageIsTheBytesInOrder : Prop :=
  (∀ lines : List (List Char), (∃ l ∈ lines, parseLine l = .malformed) →
    parseImage lines = none ∧ loaderEvents lines = []) ∧
  (∀ lines : List (List Char), (∀ l ∈ lines, parseLine l ≠ .malformed) →
    ∃ image, parseImage lines = some image ∧ image.map LoaderLine.byte = (lines.map parseLine).filter (fun r => r ≠ .blank) ∧
      (.start ∈ loaderEvents lines ↔ image.length ≤ 255))
end

