-- ==== Sys2Proof/Laws/Memory.lean ====
section
/-! SUPPORT. What the memory operations do: a read after a write, and that a write keeps the canonical form. -/

namespace Sys2Proof.Machine

@[simp] theorem Memory.read_nil (a : Nat) : Memory.read [] a = 0 := rfl

theorem Memory.read_cons (b : Nat) (w : Byte) (m : Memory) (a : Nat) :
    Memory.read ((b, w) :: m) a = if a = b then w else Memory.read m a := rfl

/-- Below the first listed address every cell reads as unlisted. -/
theorem Memory.read_eq_zero_of_wfFrom {m : Memory} {lo a : Nat} (h : Memory.wfFrom lo m = true) (ha : a < lo) :
    Memory.read m a = 0 := by
  induction m generalizing lo with
  | nil => rfl
  | cons c m ih =>
    obtain ⟨b, w⟩ := c
    simp only [Memory.wfFrom, Bool.and_eq_true, decide_eq_true_eq] at h
    obtain ⟨⟨⟨h1, _⟩, _⟩, h4⟩ := h
    have hab : a ≠ b := by omega
    rw [Memory.read_cons, if_neg hab]
    exact ih h4 (by omega)

theorem Memory.wfFrom_mono {m : Memory} {lo hi : Nat} (h : Memory.wfFrom hi m = true) (hle : lo ≤ hi) :
    Memory.wfFrom lo m = true := by
  cases m with
  | nil => rfl
  | cons c m =>
    obtain ⟨b, w⟩ := c
    simp only [Memory.wfFrom, Bool.and_eq_true, decide_eq_true_eq] at h ⊢
    exact ⟨⟨⟨by omega, h.1.1.2⟩, h.1.2⟩, h.2⟩

theorem Memory.wfFrom_write {m : Memory} {lo a : Nat} (v : Byte) (h : Memory.wfFrom lo m = true) (hlo : lo ≤ a)
    (ha : a < memSize) : Memory.wfFrom lo (Memory.write m a v) = true := by
  induction m generalizing lo with
  | nil =>
    unfold Memory.write
    split
    · rfl
    · simp_all [Memory.wfFrom]
  | cons c m ih =>
    obtain ⟨b, w⟩ := c
    have h' := h
    simp only [Memory.wfFrom, Bool.and_eq_true, decide_eq_true_eq] at h'
    obtain ⟨⟨⟨h1, h2⟩, h3⟩, h4⟩ := h'
    unfold Memory.write
    split_ifs with c1 c2 c3 c4
    · exact h
    · simp_all [Memory.wfFrom]
    · exact Memory.wfFrom_mono h4 (by omega)
    · subst c3
      simp_all [Memory.wfFrom]
    · have := ih h4 (by omega)
      simp_all [Memory.wfFrom]

/-- A write at an address with a cell keeps the canonical form. -/
theorem Memory.wf_write {m : Memory} {a : Nat} (v : Byte) (h : m.wf = true) (ha : a < memSize) :
    (m.write a v).wf = true := Memory.wfFrom_write v h (Nat.zero_le _) ha

/-- A write leaves every other cell alone. -/
theorem Memory.read_write_other (m : Memory) {a b : Nat} (v : Byte) (hab : b ≠ a) :
    (m.write a v).read b = m.read b := by
  induction m with
  | nil =>
    unfold Memory.write
    split
    · rfl
    · simp [Memory.read, hab, Memory.unlisted]
  | cons c m ih =>
    obtain ⟨x, w⟩ := c
    unfold Memory.write
    split_ifs with c1 c2 c3 c4
    · rfl
    · simp [Memory.read_cons, hab]
    · subst c3; simp [Memory.read_cons, hab]
    · subst c3; simp [Memory.read_cons, hab]
    · simp only [Memory.read_cons, ih]

theorem Memory.read_write_same_of_wfFrom {m : Memory} {lo a : Nat} (v : Byte) (h : Memory.wfFrom lo m = true) :
    (Memory.write m a v).read a = v := by
  induction m generalizing lo with
  | nil =>
    unfold Memory.write
    split_ifs with c
    · rw [c]; rfl
    · simp [Memory.read]
  | cons c m ih =>
    obtain ⟨x, w⟩ := c
    have h' := h
    simp only [Memory.wfFrom, Bool.and_eq_true, decide_eq_true_eq] at h'
    obtain ⟨⟨⟨h1, h2⟩, h3⟩, h4⟩ := h'
    unfold Memory.write
    split_ifs with c1 c2 c3 c4
    · rw [c2]
      have hax : a ≠ x := by omega
      rw [Memory.read_cons, if_neg hax]
      exact Memory.read_eq_zero_of_wfFrom h4 (by omega)
    · simp [Memory.read_cons]
    · subst c3
      rw [c4]
      exact Memory.read_eq_zero_of_wfFrom h4 (by omega)
    · simp [Memory.read_cons]
    · rw [Memory.read_cons, if_neg c3]
      exact ih h4

/-- A read after a write to the same cell gives the value written. -/
theorem Memory.read_write_same {m : Memory} {a : Nat} (v : Byte) (h : m.wf = true) : (m.write a v).read a = v :=
  Memory.read_write_same_of_wfFrom v h

theorem Memory.ext_of_wfFrom {m n : Memory} {lo : Nat} (hm : Memory.wfFrom lo m = true)
    (hn : Memory.wfFrom lo n = true) (h : ∀ a, m.read a = n.read a) : m = n := by
  induction m generalizing lo n with
  | nil =>
    cases n with
    | nil => rfl
    | cons c n =>
      obtain ⟨b, w⟩ := c
      have := h b
      simp_all [Memory.read, Memory.wfFrom, Memory.unlisted]
  | cons c m ih =>
    obtain ⟨a, v⟩ := c
    cases n with
    | nil =>
      have := h a
      simp_all [Memory.read, Memory.wfFrom, Memory.unlisted]
    | cons d n =>
      obtain ⟨b, w⟩ := d
      simp only [Memory.wfFrom, Bool.and_eq_true, decide_eq_true_eq, bne_iff_ne, ne_eq] at hm hn
      obtain ⟨⟨⟨ha1, ha2⟩, ha3⟩, ha4⟩ := hm
      obtain ⟨⟨⟨hb1, hb2⟩, hb3⟩, hb4⟩ := hn
      have hab : a = b := by
        rcases Nat.lt_trichotomy a b with hlt | heq | hgt
        · have h1 := h a
          rw [Memory.read_cons, if_pos rfl, Memory.read_cons, if_neg (by omega),
            Memory.read_eq_zero_of_wfFrom hb4 (by omega)] at h1
          exact absurd h1 ha3
        · exact heq
        · have h1 := h b
          rw [Memory.read_cons, if_neg (by omega), Memory.read_eq_zero_of_wfFrom ha4 (by omega),
            Memory.read_cons, if_pos rfl] at h1
          exact absurd h1.symm hb3
      subst hab
      have hvw : v = w := by
        have h1 := h a
        rwa [Memory.read_cons, if_pos rfl, Memory.read_cons, if_pos rfl] at h1
      subst hvw
      have htail : m = n := by
        refine ih ha4 hb4 (fun c => ?_)
        by_cases hc : c = a
        · subst hc
          rw [Memory.read_eq_zero_of_wfFrom ha4 (by omega), Memory.read_eq_zero_of_wfFrom hb4 (by omega)]
        · have h1 := h c
          rwa [Memory.read_cons, if_neg hc, Memory.read_cons, if_neg hc] at h1
      rw [htail]

/-- Two memories in canonical form that read the same are the same data. -/
theorem Memory.ext_of_wf {m n : Memory} (hm : m.wf = true) (hn : n.wf = true) (h : ∀ a, m.read a = n.read a) :
    m = n := Memory.ext_of_wfFrom hm hn h

end Sys2Proof.Machine
end

