-- ==== Sys2Proof/Laws/State.lean ====
section
/-! SUPPORT. What each named update of State does to each field: one lemma per field per update, so that no later proof
unfolds a record update. -/

namespace Sys2Proof.Machine

/-! ### takeFault (60_exceptions.md R242) -/

section
variable (f : FaultCause) (op : Byte) (s : State)

@[simp] theorem takeFault_params : (takeFault f op s).params = s.params := rfl
@[simp] theorem takeFault_regs : (takeFault f op s).regs = s.regs := rfl
@[simp] theorem takeFault_valid : (takeFault f op s).valid = s.valid := rfl
@[simp] theorem takeFault_pc : (takeFault f op s).pc = s.pc := rfl
@[simp] theorem takeFault_fl : (takeFault f op s).fl = s.fl := rfl
@[simp] theorem takeFault_ctrl : (takeFault f op s).ctrl = .faulted := rfl
@[simp] theorem takeFault_faultCause : (takeFault f op s).faultCause = f.code := rfl
@[simp] theorem takeFault_faultPc : (takeFault f op s).faultPc = s.pc := rfl
@[simp] theorem takeFault_faultOp : (takeFault f op s).faultOp = op := rfl
@[simp] theorem takeFault_faultValue : (takeFault f op s).faultValue = f.value := rfl
@[simp] theorem takeFault_ir : (takeFault f op s).ir = s.ir := rfl
@[simp] theorem takeFault_opa : (takeFault f op s).opa = s.opa := rfl
@[simp] theorem takeFault_opb : (takeFault f op s).opb = s.opb := rfl
@[simp] theorem takeFault_mem : (takeFault f op s).mem = s.mem := rfl
@[simp] theorem takeFault_loadErr : (takeFault f op s).loadErr = s.loadErr := rfl
@[simp] theorem takeFault_out : (takeFault f op s).out = s.out := rfl
@[simp] theorem takeFault_inputs : (takeFault f op s).inputs = s.inputs := rfl
@[simp] theorem takeFault_x (r : Byte) : (takeFault f op s).x r = s.x r := rfl
@[simp] theorem takeFault_isValid (r : Byte) : (takeFault f op s).isValid r = s.isValid r := rfl
end

/-! ### setX (10_state.md R31, R33) -/

section
variable (s : State) (i v : Byte)

@[simp] theorem setX_params : (s.setX i v).params = s.params := by unfold State.setX; split <;> rfl
@[simp] theorem setX_pc : (s.setX i v).pc = s.pc := by unfold State.setX; split <;> rfl
@[simp] theorem setX_fl : (s.setX i v).fl = s.fl := by unfold State.setX; split <;> rfl
@[simp] theorem setX_ctrl : (s.setX i v).ctrl = s.ctrl := by unfold State.setX; split <;> rfl
@[simp] theorem setX_faultCause : (s.setX i v).faultCause = s.faultCause := by unfold State.setX; split <;> rfl
@[simp] theorem setX_faultPc : (s.setX i v).faultPc = s.faultPc := by unfold State.setX; split <;> rfl
@[simp] theorem setX_faultOp : (s.setX i v).faultOp = s.faultOp := by unfold State.setX; split <;> rfl
@[simp] theorem setX_faultValue : (s.setX i v).faultValue = s.faultValue := by unfold State.setX; split <;> rfl
@[simp] theorem setX_ir : (s.setX i v).ir = s.ir := by unfold State.setX; split <;> rfl
@[simp] theorem setX_opa : (s.setX i v).opa = s.opa := by unfold State.setX; split <;> rfl
@[simp] theorem setX_opb : (s.setX i v).opb = s.opb := by unfold State.setX; split <;> rfl
@[simp] theorem setX_mem : (s.setX i v).mem = s.mem := by unfold State.setX; split <;> rfl
@[simp] theorem setX_loadErr : (s.setX i v).loadErr = s.loadErr := by unfold State.setX; split <;> rfl
@[simp] theorem setX_out : (s.setX i v).out = s.out := by unfold State.setX; split <;> rfl
@[simp] theorem setX_inputs : (s.setX i v).inputs = s.inputs := by unfold State.setX; split <;> rfl
end

/-- A register just written holds the value written. -/
@[simp] theorem x_setX_same (s : State) (i v : Byte) (h : i.toNat < 8) : (s.setX i v).x i = v := by
  simp [State.setX, State.x, h]

/-- A write leaves every other register alone. -/
theorem x_setX_other (s : State) {i r : Byte} (v : Byte) (h : r ≠ i) : (s.setX i v).x r = s.x r := by
  have hne : i.toNat ≠ r.toNat := fun e => h (BitVec.eq_of_toNat_eq e.symm)
  by_cases hi : i.toNat < 8 <;> by_cases hr : r.toNat < 8 <;> simp [State.setX, State.x, hi, hr, hne]

/-- A register just written is valid. -/
@[simp] theorem isValid_setX_same (s : State) (i v : Byte) (h : i.toNat < 8) : (s.setX i v).isValid i = true := by
  simp [State.setX, State.isValid, h]

/-- A write leaves every other validity bit alone. -/
theorem isValid_setX_other (s : State) {i r : Byte} (v : Byte) (h : r ≠ i) :
    (s.setX i v).isValid r = s.isValid r := by
  have hne : i.toNat ≠ r.toNat := fun e => h (BitVec.eq_of_toNat_eq e.symm)
  by_cases hi : i.toNat < 8 <;> by_cases hr : r.toNat < 8 <;> simp [State.setX, State.isValid, hi, hr, hne]

/-- A write never takes a validity bit away. -/
theorem isValid_setX_of_isValid (s : State) (i v : Byte) {r : Byte} (h : s.isValid r = true) :
    (s.setX i v).isValid r = true := by
  by_cases hr : r = i
  · subst hr
    by_cases hi : r.toNat < 8
    · simp [hi]
    · simpa [State.setX, hi] using h
  · rw [isValid_setX_other s v hr]; exact h

/-! ### afterInput and latched -/

section
variable (s : State) (op a b : Byte)

@[simp] theorem afterInput_params : s.afterInput.params = s.params := rfl
@[simp] theorem afterInput_regs : s.afterInput.regs = s.regs := rfl
@[simp] theorem afterInput_valid : s.afterInput.valid = s.valid := rfl
@[simp] theorem afterInput_pc : s.afterInput.pc = s.pc := rfl
@[simp] theorem afterInput_fl : s.afterInput.fl = s.fl := rfl
@[simp] theorem afterInput_ctrl : s.afterInput.ctrl = s.ctrl := rfl
@[simp] theorem afterInput_faultCause : s.afterInput.faultCause = s.faultCause := rfl
@[simp] theorem afterInput_faultPc : s.afterInput.faultPc = s.faultPc := rfl
@[simp] theorem afterInput_faultOp : s.afterInput.faultOp = s.faultOp := rfl
@[simp] theorem afterInput_faultValue : s.afterInput.faultValue = s.faultValue := rfl
@[simp] theorem afterInput_ir : s.afterInput.ir = s.ir := rfl
@[simp] theorem afterInput_opa : s.afterInput.opa = s.opa := rfl
@[simp] theorem afterInput_opb : s.afterInput.opb = s.opb := rfl
@[simp] theorem afterInput_mem : s.afterInput.mem = s.mem := rfl
@[simp] theorem afterInput_loadErr : s.afterInput.loadErr = s.loadErr := rfl
@[simp] theorem afterInput_out : s.afterInput.out = s.out := rfl
@[simp] theorem afterInput_inputs : s.afterInput.inputs = s.inputs.tail := rfl
@[simp] theorem afterInput_x (r : Byte) : s.afterInput.x r = s.x r := rfl
@[simp] theorem afterInput_isValid (r : Byte) : s.afterInput.isValid r = s.isValid r := rfl
@[simp] theorem latched_params : (s.latched op a b).params = s.params := rfl
@[simp] theorem latched_regs : (s.latched op a b).regs = s.regs := rfl
@[simp] theorem latched_valid : (s.latched op a b).valid = s.valid := rfl
@[simp] theorem latched_pc : (s.latched op a b).pc = s.pc := rfl
@[simp] theorem latched_fl : (s.latched op a b).fl = s.fl := rfl
@[simp] theorem latched_ctrl : (s.latched op a b).ctrl = s.ctrl := rfl
@[simp] theorem latched_faultCause : (s.latched op a b).faultCause = s.faultCause := rfl
@[simp] theorem latched_faultPc : (s.latched op a b).faultPc = s.faultPc := rfl
@[simp] theorem latched_faultOp : (s.latched op a b).faultOp = s.faultOp := rfl
@[simp] theorem latched_faultValue : (s.latched op a b).faultValue = s.faultValue := rfl
@[simp] theorem latched_ir : (s.latched op a b).ir = op := rfl
@[simp] theorem latched_opa : (s.latched op a b).opa = a := rfl
@[simp] theorem latched_opb : (s.latched op a b).opb = b := rfl
@[simp] theorem latched_mem : (s.latched op a b).mem = s.mem := rfl
@[simp] theorem latched_loadErr : (s.latched op a b).loadErr = s.loadErr := rfl
@[simp] theorem latched_out : (s.latched op a b).out = s.out := rfl
@[simp] theorem latched_inputs : (s.latched op a b).inputs = s.inputs := rfl
@[simp] theorem latched_x (r : Byte) : (s.latched op a b).x r = s.x r := rfl
@[simp] theorem latched_isValid (r : Byte) : (s.latched op a b).isValid r = s.isValid r := rfl
end

/-! ### assertReset (70_reset_and_hazards.md R270) -/

section
variable (s : State)

@[simp] theorem assertReset_params : (assertReset s).params = s.params := rfl
@[simp] theorem assertReset_pc : (assertReset s).pc = 0 := rfl
@[simp] theorem assertReset_fl : (assertReset s).fl = 0 := rfl
@[simp] theorem assertReset_ctrl : (assertReset s).ctrl = .idle := rfl
@[simp] theorem assertReset_mem : (assertReset s).mem = [] := rfl
@[simp] theorem assertReset_out : (assertReset s).out = [] := rfl
@[simp] theorem assertReset_loadErr : (assertReset s).loadErr = false := rfl
@[simp] theorem assertReset_inputs : (assertReset s).inputs = s.inputs := rfl
end

end Sys2Proof.Machine
end

