-- ==== Sys2Proof/Laws/Ops.lean ====
section
/-! SUPPORT. What each shared operation can do, said once: the sequencing of statements, register and memory accesses, the
stack operations, and the end of an instruction. -/

namespace Sys2Proof.Machine

/-! ### Sequencing -/

/-- Two statements in sequence: the second runs in the state the first left, unless the first raised. -/
theorem bind_apply {α β : Type} (act : Act α) (k : α → Act β) (s : State) :
    (act >>= k) s = match act s with
      | .ok v t => k v t
      | .error f t => .error f t := by
  simp only [bind, EStateM.bind]
  cases act s <;> rfl

theorem bind_ok {α β : Type} {act : Act α} {k : α → Act β} {s t : State} {v : α} (h : act s = .ok v t) :
    (act >>= k) s = k v t := by rw [bind_apply, h]

theorem bind_error {α β : Type} {act : Act α} {k : α → Act β} {s t : State} {f : FaultCause} (h : act s = .error f t) :
    (act >>= k) s = .error f t := by rw [bind_apply, h]

@[simp] theorem pure_apply {α : Type} (v : α) (s : State) : (pure v : Act α) s = .ok v s := rfl

@[simp] theorem raise_apply {α : Type} (f : FaultCause) (s : State) : (raise f : Act α) s = .error f s := rfl

@[simp] theorem finish_ok (s : State) : finish (.ok () s) = .next s := rfl

@[simp] theorem finish_error (f : FaultCause) (s : State) : finish (.error f s) = .next (takeFault f s.ir s) := rfl

/-- An instruction always answers a next state. -/
theorem runInstr_next (act : Act Unit) (s : State) : ∃ t, runInstr act s = .next t := by
  unfold runInstr
  cases act s with
  | ok v t => exact ⟨t, rfl⟩
  | error f t => exact ⟨takeFault f t.ir t, rfl⟩

/-! ### Registers -/

theorem isReg_iff (i : Byte) : isReg i = true ↔ i.toNat < 8 := by simp [isReg]

/-- A read raises exactly what `readFault` names. -/
theorem readable_iff_readFault (s : State) (i : Byte) : s.readable i = true ↔ s.readFault i = none := by
  unfold State.readable State.readFault isReg
  by_cases h : 8 ≤ i.toNat
  · simp [h, Nat.not_lt.mpr h]
  · have h' : i.toNat < 8 := by omega
    cases hp : s.params.regResetPolicy <;> cases hv : s.isValid i <;> simp [h, h']

theorem readReg_of_none {s : State} {i : Byte} (h : s.readFault i = none) : readReg i s = .ok (s.x i) s := by
  have hr := (readable_iff_readFault s i).mpr h
  have hi : isReg i = true := by
    unfold State.readable at hr
    exact (Bool.and_eq_true _ _ ▸ hr).1
  simp [readReg, hr, hi]

theorem readReg_of_some {s : State} {i : Byte} {f : FaultCause} (h : s.readFault i = some f) :
    readReg i s = .error f s := by
  have hr : s.readable i = false := by
    by_contra hc
    rw [Bool.not_eq_false, readable_iff_readFault, h] at hc
    cases hc
  unfold State.readFault at h
  unfold readReg isReg
  split_ifs at h with h1 h2
  · have : ¬ i.toNat < 8 := by omega
    cases h; simp [this]
  · have : i.toNat < 8 := by omega
    cases h; simp [this, hr]

/-- Everything a register read can do. -/
theorem readReg_cases (s : State) (i : Byte) :
    (s.readFault i = none ∧ readReg i s = .ok (s.x i) s) ∨
      (∃ f, s.readFault i = some f ∧ readReg i s = .error f s) := by
  cases h : s.readFault i with
  | none => exact .inl ⟨rfl, readReg_of_none h⟩
  | some f => exact .inr ⟨f, rfl, readReg_of_some h⟩

theorem writeReg_of_lt {s : State} {i v : Byte} (h : i.toNat < 8) : writeReg i v s = .ok () (s.setX i v) := by
  simp [writeReg, isReg, h]

theorem writeReg_of_le {s : State} {i v : Byte} (h : 8 ≤ i.toNat) : writeReg i v s = .error (.regOutOfRange i) s := by
  have : ¬ i.toNat < 8 := by omega
  simp [writeReg, isReg, this]

theorem lt_of_readFault {s : State} {i : Byte} (h : s.readFault i = none) : i.toNat < 8 := by
  unfold State.readFault at h
  split_ifs at h with h1
  omega

theorem readFault_of_isValid {s : State} {i : Byte} (hi : i.toNat < 8) (h : s.isValid i = true) :
    s.readFault i = none := by
  have : ¬ 8 ≤ i.toNat := by omega
  simp [State.readFault, this, h]

theorem spIndex_lt : spIndex.toNat < 8 := by decide

/-! ### Memory -/

theorem memRead_of_lt {s : State} {a : Nat} (h : a < memSize) : memRead a s = .ok (s.mem.read a) s := by
  simp [memRead, inMemory, h]

theorem memRead_of_le {s : State} {a : Nat} (h : memSize ≤ a) : memRead a s = .error (.memOutOfRange a) s := by
  have : ¬ a < memSize := by omega
  simp [memRead, inMemory, this]

theorem memWrite_of_lt {s : State} {a : Nat} {v : Byte} (h : a < memSize) :
    memWrite a v s = .ok () { s with mem := s.mem.write a v } := by
  simp [memWrite, inMemory, h]

theorem memWrite_of_le {s : State} {a : Nat} {v : Byte} (h : memSize ≤ a) :
    memWrite a v s = .error (.memOutOfRange a) s := by
  have : ¬ a < memSize := by omega
  simp [memWrite, inMemory, this]

/-! ### The other primitives -/

@[simp] theorem readPc_apply (s : State) : readPc s = .ok s.pc s := rfl
@[simp] theorem setPc_apply (t : Byte) (s : State) : setPc t s = .ok () { s with pc := t } := rfl
@[simp] theorem advance_apply (n : Byte) (s : State) : advance n s = .ok () { s with pc := s.pc + n } := rfl
@[simp] theorem readFl_apply (s : State) : readFl s = .ok s.fl s := rfl
@[simp] theorem setFl_apply (v : BitVec 3) (s : State) : setFl v s = .ok () { s with fl := v } := rfl
@[simp] theorem setCtrl_apply (c : Ctrl) (s : State) : setCtrl c s = .ok () { s with ctrl := c } := rfl
@[simp] theorem emit_apply (v : Byte) (s : State) : emit v s = .ok () { s with out := s.out ++ [v] } := rfl
@[simp] theorem setIr_apply (v : Byte) (s : State) : setIr v s = .ok () { s with ir := v } := rfl
@[simp] theorem setOpa_apply (v : Byte) (s : State) : setOpa v s = .ok () { s with opa := v } := rfl
@[simp] theorem setOpb_apply (v : Byte) (s : State) : setOpb v s = .ok () { s with opb := v } := rfl

/-! ### Operands and the stack -/

theorem readPair_of_none {s : State} {a b : Byte} (ha : s.readFault a = none) (hb : s.readFault b = none) :
    readPair a b s = .ok (s.x a, s.x b) s := by
  unfold readPair
  rw [bind_ok (readReg_of_none ha), bind_ok (readReg_of_none hb)]
  rfl

theorem readPair_of_left {s : State} {a b : Byte} {f : FaultCause} (ha : s.readFault a = some f) :
    readPair a b s = .error f s := by
  simp [readPair, bind_apply, readReg_of_some ha]

theorem readPair_of_right {s : State} {a b : Byte} {f : FaultCause} (ha : s.readFault a = none)
    (hb : s.readFault b = some f) : readPair a b s = .error f s := by
  unfold readPair
  rw [bind_ok (readReg_of_none ha), bind_error (readReg_of_some hb)]

/-- Everything the reading of two operands can do. -/
theorem readPair_cases (s : State) (a b : Byte) :
    (s.readFault a = none ∧ s.readFault b = none ∧ readPair a b s = .ok (s.x a, s.x b) s) ∨
      (∃ f, (s.readFault a = some f ∨ s.readFault b = some f) ∧ readPair a b s = .error f s) := by
  rcases ha : s.readFault a with _ | f
  · rcases hb : s.readFault b with _ | g
    · exact .inl ⟨rfl, rfl, readPair_of_none ha hb⟩
    · exact .inr ⟨g, .inr rfl, readPair_of_right ha hb⟩
  · exact .inr ⟨f, .inl rfl, readPair_of_left ha⟩

theorem moveSp_of_none {s : State} (k : Byte) (h : s.readFault spIndex = none) :
    moveSp k s = .ok () (s.setX spIndex (s.sp + k)) := by
  simp [moveSp, bind_apply, readReg_of_none h, writeReg_of_lt spIndex_lt, State.sp]

theorem moveSp_of_some {s : State} (k : Byte) {f : FaultCause} (h : s.readFault spIndex = some f) :
    moveSp k s = .error f s := by
  simp [moveSp, bind_apply, readReg_of_some h]

theorem sub_one_eq (v : Byte) : v + -1 = v - 1 := by
  rw [BitVec.sub_eq_add_neg]

theorem decrementSp_of_none {s : State} (h : s.readFault spIndex = none) :
    decrementSp s = .ok () (s.setX spIndex (s.sp - 1)) := by
  rw [decrementSp, moveSp_of_none _ h, sub_one_eq]

theorem decrementSp_of_some {s : State} {f : FaultCause} (h : s.readFault spIndex = some f) :
    decrementSp s = .error f s := moveSp_of_some _ h

theorem incrementSp_of_none {s : State} (h : s.readFault spIndex = none) :
    incrementSp s = .ok () (s.setX spIndex (s.sp + 1)) := moveSp_of_none _ h

/-- The stack pointer can be read right after it was written. -/
theorem readFault_sp_setX (s : State) (v : Byte) : (s.setX spIndex v).readFault spIndex = none :=
  readFault_of_isValid spIndex_lt (isValid_setX_same s spIndex v spIndex_lt)

@[simp] theorem sp_setX_sp (s : State) (v : Byte) : (s.setX spIndex v).sp = v := x_setX_same s spIndex v spIndex_lt

/-- A write to another register does not take the stack pointer's readability away. -/
theorem readFault_setX_of_none {s : State} (i v : Byte) {r : Byte} (h : s.readFault r = none) :
    (s.setX i v).readFault r = none := by
  have hr := lt_of_readFault h
  unfold State.readFault at h ⊢
  have h8 : ¬ 8 ≤ r.toNat := by omega
  simp only [h8, if_false, setX_params] at h ⊢
  split_ifs at h with hc
  rw [if_neg]
  rintro ⟨hp, hv⟩
  cases hs : s.isValid r with
  | false => exact hc ⟨hp, hs⟩
  | true => rw [isValid_setX_of_isValid s i v hs] at hv; cases hv

theorem loadAtSp_of_lt {s : State} (h : s.readFault spIndex = none) (hm : s.sp.toNat < memSize) :
    loadAtSp s = .ok (s.mem.read s.sp.toNat) s := by
  simp only [State.sp] at hm
  simp [loadAtSp, bind_apply, readReg_of_none h, State.sp, memRead_of_lt hm]

theorem loadAtSp_of_le {s : State} (h : s.readFault spIndex = none) (hm : memSize ≤ s.sp.toNat) :
    loadAtSp s = .error (.memOutOfRange s.sp.toNat) s := by
  simp only [State.sp] at hm
  simp [loadAtSp, bind_apply, readReg_of_none h, State.sp, memRead_of_le hm]

theorem loadAtSp_of_some {s : State} {f : FaultCause} (h : s.readFault spIndex = some f) :
    loadAtSp s = .error f s := by
  simp [loadAtSp, bind_apply, readReg_of_some h]

theorem storeAtSp_of_lt {s : State} {v : Byte} (h : s.readFault spIndex = none) (hm : s.sp.toNat < memSize) :
    storeAtSp v s = .ok () { s with mem := s.mem.write s.sp.toNat v } := by
  simp only [State.sp] at hm
  simp [storeAtSp, bind_apply, readReg_of_none h, State.sp, memWrite_of_lt hm]

theorem storeAtSp_of_le {s : State} {v : Byte} (h : s.readFault spIndex = none) (hm : memSize ≤ s.sp.toNat) :
    storeAtSp v s = .error (.memOutOfRange s.sp.toNat) s := by
  simp only [State.sp] at hm
  simp [storeAtSp, bind_apply, readReg_of_none h, State.sp, memWrite_of_le hm]

theorem jumpToReg_of_none {s : State} {a : Byte} (h : s.readFault a = none) :
    jumpToReg a s = .ok () { s with pc := s.x a } := by
  simp [jumpToReg, bind_apply, readReg_of_none h]

theorem jumpToReg_of_some {s : State} {a : Byte} {f : FaultCause} (h : s.readFault a = some f) :
    jumpToReg a s = .error f s := by
  simp [jumpToReg, bind_apply, readReg_of_some h]

/-! ### The ALU -/

theorem aluBinary_of_none {s : State} {a b : Byte} (g : Byte → Byte → Byte) (ha : s.readFault a = none)
    (hb : s.readFault b = none) : aluBinary g a b s = .ok () (s.setX a (g (s.x a) (s.x b))) := by
  simp [aluBinary, bind_apply, readPair_of_none ha hb, writeReg_of_lt (lt_of_readFault ha)]

theorem aluCmp_of_none {s : State} {a b : Byte} (ha : s.readFault a = none) (hb : s.readFault b = none) :
    aluCmp a b s = .ok () { s with fl := cmpFlags (s.x a) (s.x b) } := by
  simp [aluCmp, bind_apply, readPair_of_none ha hb]

section
variable (a b : Byte)

@[simp] theorem alu_add : alu (opcodeMap .add) a b = aluAdd a b := rfl
@[simp] theorem alu_sub : alu (opcodeMap .sub) a b = aluSub a b := rfl
@[simp] theorem alu_mul : alu (opcodeMap .mul) a b = aluMul a b := rfl
@[simp] theorem alu_mod : alu (opcodeMap .mod) a b = aluMod a b := rfl
@[simp] theorem alu_cmp : alu (opcodeMap .cmp) a b = aluCmp a b := rfl
@[simp] theorem alu_and : alu (opcodeMap .and) a b = aluAnd a b := rfl
@[simp] theorem alu_or : alu (opcodeMap .or) a b = aluOr a b := rfl
@[simp] theorem alu_xor : alu (opcodeMap .xor) a b = aluXor a b := rfl
@[simp] theorem alu_not : alu (opcodeMap .not) a b = aluNot a b := rfl
@[simp] theorem alu_shl : alu (opcodeMap .shl) a b = aluShl a b := rfl
@[simp] theorem alu_shr : alu (opcodeMap .shr) a b = aluShr a b := rfl
end

end Sys2Proof.Machine
end

