-- ==== Sys2Proof/Laws/Step.lean ====
section
/-! SUPPORT. What the fetch and the step can do, said once. -/

namespace Sys2Proof.Machine

theorem fetchOpcode_of_lt {s : State} (h : s.pc.toNat < memSize) :
    fetchOpcode s = .ok (s.fetchByte 0) { s with ir := s.fetchByte 0 } := by
  unfold fetchOpcode
  rw [bind_ok (readPc_apply s), bind_ok (memRead_of_lt h), bind_ok (setIr_apply _ s)]
  rfl

theorem fetchOpcode_of_le {s : State} (h : memSize ≤ s.pc.toNat) :
    fetchOpcode s = .error (.memOutOfRange s.pc.toNat) s := by
  unfold fetchOpcode
  rw [bind_ok (readPc_apply s), bind_error (memRead_of_le h)]

theorem fetchOperands_of_lt {s : State} (h : s.pc.toNat + 2 < memSize) :
    fetchOperands s = .ok (s.fetchByte 1, s.fetchByte 2) { s with opa := s.fetchByte 1, opb := s.fetchByte 2 } := by
  have h1 : s.pc.toNat + 1 < memSize := by omega
  unfold fetchOperands
  rw [bind_ok (readPc_apply s), bind_ok (memRead_of_lt h1), bind_ok (setOpa_apply _ s)]
  rw [bind_ok (memRead_of_lt (by simpa using h)), bind_ok (setOpb_apply _ _)]
  rfl

/-- An operand read that fails: the error names the first address with no cell, and only OPA may have changed. -/
theorem fetchOperands_of_le {s : State} (h0 : s.pc.toNat < memSize) (h : memSize ≤ s.pc.toNat + 2) :
    ∃ v, fetchOperands s = .error (.memOutOfRange memSize) { s with opa := v } := by
  by_cases h1 : s.pc.toNat + 1 < memSize
  · refine ⟨s.mem.read (s.pc.toNat + 1), ?_⟩
    unfold fetchOperands
    rw [bind_ok (readPc_apply s), bind_ok (memRead_of_lt h1), bind_ok (setOpa_apply _ s)]
    rw [bind_error (memRead_of_le (by simpa using h))]
    have : s.pc.toNat + 2 = memSize := by omega
    rw [this]
  · refine ⟨s.opa, ?_⟩
    unfold fetchOperands
    rw [bind_ok (readPc_apply s), bind_error (memRead_of_le (by omega))]
    have : s.pc.toNat + 1 = memSize := by omega
    rw [this]

/-- A step in RUNNING whose window lies in memory decodes and executes it. -/
theorem stepRunning_of_lt {s : State} (h : s.pc.toNat + 2 < memSize) :
    stepRunning s = decodeAndExec (s.fetchByte 0) (s.fetchByte 1) (s.fetchByte 2)
      (s.latched (s.fetchByte 0) (s.fetchByte 1) (s.fetchByte 2)) := by
  unfold stepRunning
  rw [fetchOpcode_of_lt (by omega)]
  simp only []
  rw [fetchOperands_of_lt (by simpa using h)]
  rfl

/-- A step in RUNNING whose window leaves memory takes the memory fault; only IR and OPA may have changed besides. -/
theorem stepRunning_of_le {s : State} (h : memSize ≤ s.pc.toNat + 2) :
    ∃ i v op, stepRunning s = .next (takeFault (.memOutOfRange memSize) op { s with ir := i, opa := v }) ∧
      op = if s.pc.toNat < memSize then s.fetchByte 0 else 0 := by
  by_cases h0 : s.pc.toNat < memSize
  · obtain ⟨v, hv⟩ := fetchOperands_of_le (s := { s with ir := s.fetchByte 0 }) h0 h
    refine ⟨s.fetchByte 0, v, s.fetchByte 0, ?_, by rw [if_pos h0]⟩
    unfold stepRunning
    rw [fetchOpcode_of_lt h0]
    simp only []
    rw [hv]
  · refine ⟨s.ir, s.opa, 0, ?_, by rw [if_neg h0]⟩
    unfold stepRunning
    rw [fetchOpcode_of_le (by omega)]
    have h255 : s.pc.toNat = memSize := by
      have := s.pc.isLt
      simp only [memSize] at *
      omega
    rw [h255]

/-- Every meaning is the run of its statements. -/
theorem exec_eq_runInstr (i : Instr) (s : State) : exec i s = runInstr (statementsOf i) s := by
  cases i <;> rfl

/-- Every instruction answers a next state. -/
theorem exec_next (i : Instr) (s : State) : ∃ t, exec i s = .next t :=
  exec_eq_runInstr i s ▸ runInstr_next _ _

/-- Decoding and executing answers a next state. -/
theorem decodeAndExec_next (op a b : Byte) (s : State) : ∃ t, decodeAndExec op a b s = .next t := by
  unfold decodeAndExec
  split
  · exact exec_next _ _
  · exact ⟨_, rfl⟩

/-- Everything a step can do (R100). -/
theorem step_cases (s : State) :
    (s.input = .rst ∧ step s = .next (assertReset s.afterInput)) ∨
    (s.input ≠ .rst ∧ s.ctrl = .idle ∧ step s = .next (idleStep s.input s.afterInput)) ∨
    (s.input ≠ .rst ∧ s.ctrl = .running ∧ step s = stepRunning s.afterInput) ∨
    (s.input ≠ .rst ∧ (s.ctrl = .halted ∨ s.ctrl = .faulted) ∧ step s = .next s.afterInput) := by
  by_cases hr : s.input = .rst
  · exact .inl ⟨hr, by simp [step, hr]⟩
  · cases hc : s.ctrl
    · exact .inr (.inl ⟨hr, rfl, by simp [step, hr, hc]⟩)
    · exact .inr (.inr (.inl ⟨hr, rfl, by simp [step, hr, hc]⟩))
    · exact .inr (.inr (.inr ⟨hr, .inl rfl, by simp [step, hr, hc]⟩))
    · exact .inr (.inr (.inr ⟨hr, .inr rfl, by simp [step, hr, hc]⟩))

/-- A step that fetches its window decodes and executes it in `s.fetched`. -/
theorem step_of_fetches {s : State} (h : s.fetches) :
    step s = decodeAndExec (s.fetchByte 0) (s.fetchByte 1) (s.fetchByte 2) s.fetched := by
  obtain ⟨h1, h2, h3⟩ := h
  have : step s = stepRunning s.afterInput := by simp [step, h1, h2]
  rw [this, stepRunning_of_lt (by simp only [afterInput_pc, memSize]; omega)]
  rfl

/-! ### State.fetched -/

section
variable (s : State)
@[simp] theorem fetched_params : s.fetched.params = s.params := rfl
@[simp] theorem fetched_regs : s.fetched.regs = s.regs := rfl
@[simp] theorem fetched_valid : s.fetched.valid = s.valid := rfl
@[simp] theorem fetched_pc : s.fetched.pc = s.pc := rfl
@[simp] theorem fetched_fl : s.fetched.fl = s.fl := rfl
@[simp] theorem fetched_ctrl : s.fetched.ctrl = s.ctrl := rfl
@[simp] theorem fetched_faultCause : s.fetched.faultCause = s.faultCause := rfl
@[simp] theorem fetched_faultPc : s.fetched.faultPc = s.faultPc := rfl
@[simp] theorem fetched_faultOp : s.fetched.faultOp = s.faultOp := rfl
@[simp] theorem fetched_faultValue : s.fetched.faultValue = s.faultValue := rfl
@[simp] theorem fetched_mem : s.fetched.mem = s.mem := rfl
@[simp] theorem fetched_loadErr : s.fetched.loadErr = s.loadErr := rfl
@[simp] theorem fetched_out : s.fetched.out = s.out := rfl
@[simp] theorem fetched_inputs : s.fetched.inputs = s.inputs.tail := rfl
@[simp] theorem fetched_ir : s.fetched.ir = s.fetchByte 0 := rfl
@[simp] theorem fetched_opa : s.fetched.opa = s.fetchByte 1 := rfl
@[simp] theorem fetched_opb : s.fetched.opb = s.fetchByte 2 := rfl
@[simp] theorem fetched_x (r : Byte) : s.fetched.x r = s.x r := rfl
@[simp] theorem fetched_isValid (r : Byte) : s.fetched.isValid r = s.isValid r := rfl
@[simp] theorem fetched_readFault (r : Byte) : s.fetched.readFault r = s.readFault r := rfl
end

end Sys2Proof.Machine
end

