-- ==== Sys2Proof/Laws/Exec.lean ====
section
/-! SUPPORT. Everything an instruction can do, said once: it takes a fault in a state named by `FaultsIn`, or it completes in
the state named by `Completes` (`statements_cases`, `exec_cases`). Frames and invariants follow from this one lemma. -/

namespace Sys2Proof.Machine

/-! ### From the statements to the answer -/

theorem exec_of_ok {i : Instr} {s t : State} (h : statementsOf i s = .ok () t) : exec i s = .next t := by
  rw [exec_eq_runInstr, runInstr, h]; rfl

theorem exec_of_error {i : Instr} {s t : State} {f : FaultCause} (h : statementsOf i s = .error f t) :
    exec i s = .next (takeFault f t.ir t) := by
  rw [exec_eq_runInstr, runInstr, h]; rfl

theorem aluInstr_of_ok {m : Mnemonic} {a b : Byte} {s u : State} (h : alu (opcodeMap m) a b s = .ok () u) :
    aluInstr m a b s = .ok () { u with pc := u.pc + 3 } := by
  unfold aluInstr; rw [bind_ok h]; rfl

theorem aluInstr_of_error {m : Mnemonic} {a b : Byte} {s u : State} {f : FaultCause}
    (h : alu (opcodeMap m) a b s = .error f u) : aluInstr m a b s = .error f u := by
  unfold aluInstr; rw [bind_error h]

theorem aluNot_of_none {a src : Byte} {s : State} (ha : s.readFault a = none) :
    aluNot a src s = .ok () (s.setX a (~~~ s.x a)) := by
  unfold aluNot; rw [bind_ok (readReg_of_none ha), writeReg_of_lt (lt_of_readFault ha)]

theorem aluNot_of_some {a src : Byte} {s : State} {f : FaultCause} (ha : s.readFault a = some f) :
    aluNot a src s = .error f s := by
  unfold aluNot; rw [bind_error (readReg_of_some ha)]

/-- MOD does nothing, or is the true modulo, by `MOD_SEMANTICS` (R134). -/
theorem aluMod_cases (a b : Byte) (s : State) :
    (s.params.modSemantics = .noop ∧ aluMod a b s = .ok () s) ∨
      (s.params.modSemantics = .modulo ∧ aluMod a b s = aluTrueMod a b s) := by
  unfold aluMod
  cases h : s.params.modSemantics <;> simp

theorem jumpIf_apply (p : BitVec 3 → Bool) (a : Byte) (s : State) :
    jumpIf p a s = if p s.fl then jumpToReg a s else .ok () { s with pc := s.pc + 2 } := by
  unfold jumpIf
  rw [bind_ok (readFl_apply s)]
  split <;> rfl

/-! ### The stack addresses -/

theorem pushAddr_lt {v : Byte} (h : v ≠ 0) : (v - 1).toNat < 255 := by
  have hne : (v - 1).toNat ≠ 255 := by
    intro e
    apply h
    have hv : v - 1 = (255 : Byte) := BitVec.eq_of_toNat_eq e
    have : v = (255 : Byte) + 1 := by rw [← hv]; simp
    rw [this]; rfl
  have := (v - 1).isLt
  omega

theorem pushAddr_of_zero {v : Byte} (h : v = 0) : (v - 1).toNat = 255 := by subst h; rfl

theorem toNat_eq_255 {v : Byte} (h : ¬ v.toNat < 255) : v.toNat = 255 := by have := v.isLt; omega

/-! ### What an instruction can do -/

/-- A cause an instruction can raise under the parameters (R241): UnknownOpcode and UnsupportedAluOp are not among them. -/
def InstrFault (s : State) : FaultCause → Prop
  | .unknownOpcode _ => False
  | .unsupportedAluOp _ => False
  | .memOutOfRange a => a = 255
  | .regOutOfRange _ => True
  | .unwrittenRegisterRead _ => s.params.regResetPolicy = .unwritten
  | .modByZero _ => s.params.modSemantics = .modulo

/-- The state after the stack pointer's decrement, which PUSH and CALL make first. -/
def State.spDown (s : State) : State := s.setX spIndex (s.sp - 1)

/-- The state the statements before the raise leave (R243): the state before, but for PUSH and CALL. -/
def FaultsIn (i : Instr) (f : FaultCause) (s u : State) : Prop :=
  match i with
  | .push _ => (s.readFault spIndex ≠ none ∧ u = s) ∨ (s.readFault spIndex = none ∧ u = s.spDown)
  | .call _ =>
    (s.readFault spIndex ≠ none ∧ u = s) ∨
    (s.readFault spIndex = none ∧ s.sp = 0 ∧ f = .memOutOfRange 255 ∧ u = s.spDown) ∨
    (s.readFault spIndex = none ∧ s.sp ≠ 0 ∧ u = { s.spDown with mem := s.mem.write s.pushAddr (s.pc + 2) })
  | _ => u = s

/-- A two-operand register-writing operation completes. -/
def BinaryCompletes (g : Byte → Byte → Byte) (a b : Byte) (s t : State) : Prop :=
  s.readFault a = none ∧ s.readFault b = none ∧ t = { s.setX a (g (s.x a) (s.x b)) with pc := s.pc + 3 }

/-- The instruction completes in the state `t`. -/
def Completes (i : Instr) (s t : State) : Prop :=
  match i with
  | .hlt => t = { s with ctrl := .halted, pc := s.pc + 1 }
  | .ret => s.readFault spIndex = none ∧ s.sp.toNat < 255 ∧ t = { s.setX spIndex (s.sp + 1) with pc := s.mem.read s.popAddr }
  | .push a => s.readFault spIndex = none ∧ s.pushAddr < 255 ∧
      t = { s.spDown with mem := s.mem.write s.pushAddr (s.spDown.x a), pc := s.pc + 2 }
  | .pop a => s.readFault spIndex = none ∧ s.sp.toNat < 255 ∧ a.toNat < 8 ∧
      ∃ u, u = s.setX a (s.mem.read s.popAddr) ∧ t = { u.setX spIndex (u.sp + 1) with pc := s.pc + 2 }
  | .prn a => s.readFault a = none ∧ t = { s with out := s.out ++ [s.x a], pc := s.pc + 2 }
  | .call a => s.readFault spIndex = none ∧ s.pushAddr < 255 ∧
      t = { s.spDown with mem := s.mem.write s.pushAddr (s.pc + 2), pc := s.spDown.x a }
  | .jmp a => t = { s with pc := s.x a }
  | .jeq a => t = { s with pc := if s.fl = 0b001 then s.x a else s.pc + 2 }
  | .jne a => t = { s with pc := if s.fl = 0b001 then s.pc + 2 else s.x a }
  | .not a => s.readFault a = none ∧ t = { s.setX a (~~~ s.x a) with pc := s.pc + 2 }
  | .ldi a imm => a.toNat < 8 ∧ t = { s.setX a imm with pc := s.pc + 3 }
  | .add a b => BinaryCompletes (fun d s => d + s) a b s t
  | .sub a b => BinaryCompletes (fun d s => d - s) a b s t
  | .mul a b => BinaryCompletes (fun d s => d * s) a b s t
  | .mod a b => (s.params.modSemantics = .noop ∧ t = { s with pc := s.pc + 3 }) ∨
      (s.params.modSemantics = .modulo ∧ BinaryCompletes (fun d s => d % s) a b s t)
  | .cmp a b => t = { s with fl := cmpFlags (s.x a) (s.x b), pc := s.pc + 3 }
  | .and a b => BinaryCompletes (fun d s => d &&& s) a b s t
  | .or a b => BinaryCompletes (fun d s => d ||| s) a b s t
  | .xor a b => BinaryCompletes (fun d s => d ^^^ s) a b s t
  | .shl a b => BinaryCompletes (fun d s => d <<< s.toNat) a b s t
  | .shr a b => BinaryCompletes (fun d s => d >>> s.toNat) a b s t

theorem instrFault_of_readFault {s : State} {r : Byte} {f : FaultCause} (h : s.readFault r = some f) : InstrFault s f := by
  unfold State.readFault at h
  split_ifs at h with h1 h2
  · cases h; trivial
  · cases h; exact h2.1

/-- The statements of an instruction raise a fault it can raise, in the state `FaultsIn` names, or they complete in the state
`Completes` names. -/
def Answers (i : Instr) (s : State) : Prop :=
  (∃ f u, statementsOf i s = .error f u ∧ InstrFault s f ∧ FaultsIn i f s u) ∨
    (∃ u, statementsOf i s = .ok () u ∧ Completes i s u)

theorem answers_of_fault {i : Instr} {s : State} {f : FaultCause} (hs : statementsOf i s = .error f s)
    (hf : InstrFault s f) (hu : FaultsIn i f s s) : Answers i s := .inl ⟨f, s, hs, hf, hu⟩

theorem answers_of_completes {i : Instr} {s u : State} (hs : statementsOf i s = .ok () u) (hc : Completes i s u) :
    Answers i s := .inr ⟨u, hs, hc⟩

theorem instrFault_of_readPair {s : State} {a b : Byte} {f : FaultCause}
    (h : s.readFault a = some f ∨ s.readFault b = some f) : InstrFault s f := by
  rcases h with h | h <;> exact instrFault_of_readFault h

/-- A two-operand register-writing operation faults on an operand or completes. -/
theorem answers_of_binary {i : Instr} {m : Mnemonic} {g} {a b : Byte} {s : State} (hi : statementsOf i = aluInstr m a b)
    (hm : alu (opcodeMap m) a b = aluBinary g a b) (hc : ∀ u, BinaryCompletes g a b s u → Completes i s u) (hu : ∀ f, FaultsIn i f s s) :
    Answers i s := by
  rcases readPair_cases s a b with ⟨ha, hb, hp⟩ | ⟨f, hf, hp⟩
  · have h1 := aluBinary_of_none g ha hb
    rw [← hm] at h1
    refine answers_of_completes ((congrFun hi s).trans (aluInstr_of_ok h1)) (hc _ ⟨ha, hb, ?_⟩)
    simp
  · refine answers_of_fault ((congrFun hi s).trans (aluInstr_of_error ?_)) (instrFault_of_readPair hf) (hu f)
    rw [hm]; unfold aluBinary; rw [bind_error hp]

/-- Everything the statements of an instruction can do. -/
theorem statements_cases (i : Instr) (s : State) : Answers i s := by
  cases i with
  | hlt =>
    refine answers_of_completes (u := { s with ctrl := .halted, pc := s.pc + 1 }) ?_ rfl
    show hltInstr s = _; unfold hltInstr; rw [bind_ok (setCtrl_apply _ _)]; rfl
  | ret =>
    rcases readReg_cases s spIndex with ⟨h7, _⟩ | ⟨f, hf, _⟩
    · by_cases hm : s.sp.toNat < 255
      · refine answers_of_completes (u := { s.setX spIndex (s.sp + 1) with pc := s.mem.read s.popAddr }) ?_ ⟨h7, hm, rfl⟩
        show retInstr s = _; unfold retInstr
        rw [bind_ok (loadAtSp_of_lt h7 hm), bind_ok (incrementSp_of_none h7)]; rfl
      · refine answers_of_fault (f := .memOutOfRange s.sp.toNat) ?_ (toNat_eq_255 hm) rfl
        show retInstr s = _; unfold retInstr
        rw [bind_error (loadAtSp_of_le h7 (by simpa [memSize] using hm))]
    · refine answers_of_fault (f := f) ?_ (instrFault_of_readFault hf) rfl
      show retInstr s = _; unfold retInstr
      rw [bind_error (loadAtSp_of_some hf)]
  | push a =>
    rcases readReg_cases s spIndex with ⟨h7, _⟩ | ⟨f, hf, _⟩
    · have hd := decrementSp_of_none h7
      have hu7 := readFault_sp_setX s (s.sp - 1)
      rcases readReg_cases (s.setX spIndex (s.sp - 1)) a with ⟨h1, h2⟩ | ⟨f, hf, h2⟩
      · by_cases hm : s.pushAddr < 255
        · refine answers_of_completes (u := { s.spDown with mem := s.mem.write s.pushAddr (s.spDown.x a), pc := s.pc + 2 }) ?_ ⟨h7, hm, rfl⟩
          show pushInstr a s = _; unfold pushInstr
          rw [bind_ok hd, bind_ok h2, bind_ok (storeAtSp_of_lt hu7 (by rw [sp_setX_sp]; exact hm))]
          simp [State.spDown, State.pushAddr]
        · have e : statementsOf (.push a) s = .error (.memOutOfRange s.pushAddr) s.spDown := by
            show pushInstr a s = _; unfold pushInstr
            rw [bind_ok hd, bind_ok h2, bind_error (storeAtSp_of_le hu7 (by rw [sp_setX_sp]; simpa [memSize, State.pushAddr] using hm))]
            simp [State.spDown, State.pushAddr]
          exact .inl ⟨_, _, e, toNat_eq_255 hm, .inr ⟨h7, rfl⟩⟩
      · have e : statementsOf (.push a) s = .error f s.spDown := by
          show pushInstr a s = _; unfold pushInstr
          rw [bind_ok hd, bind_error h2]; rfl
        refine .inl ⟨_, _, e, ?_, .inr ⟨h7, rfl⟩⟩
        have hi := instrFault_of_readFault hf
        cases f <;> exact hi
    · refine answers_of_fault (f := f) ?_ (instrFault_of_readFault hf) (.inl ⟨by rw [hf]; simp, rfl⟩)
      show pushInstr a s = _; unfold pushInstr
      rw [bind_error (decrementSp_of_some hf)]
  | pop a =>
    rcases readReg_cases s spIndex with ⟨h7, _⟩ | ⟨f, hf, _⟩
    · by_cases hm : s.sp.toNat < 255
      · by_cases ha : a.toNat < 8
        · have hu7 := readFault_setX_of_none a (s.mem.read s.popAddr) h7
          refine answers_of_completes (u := _) ?_ ⟨h7, hm, ha, _, rfl, rfl⟩
          show popInstr a s = _; unfold popInstr
          rw [bind_ok (loadAtSp_of_lt h7 hm), bind_ok (writeReg_of_lt ha)]
          rw [show s.mem.read s.sp.toNat = s.mem.read s.popAddr from rfl, bind_ok (incrementSp_of_none hu7)]
          simp
        · refine answers_of_fault (f := .regOutOfRange a) ?_ trivial rfl
          show popInstr a s = _; unfold popInstr
          rw [bind_ok (loadAtSp_of_lt h7 hm), bind_error (writeReg_of_le (by omega))]
      · refine answers_of_fault (f := .memOutOfRange s.sp.toNat) ?_ (toNat_eq_255 hm) rfl
        show popInstr a s = _; unfold popInstr
        rw [bind_error (loadAtSp_of_le h7 (by simpa [memSize] using hm))]
    · refine answers_of_fault (f := f) ?_ (instrFault_of_readFault hf) rfl
      show popInstr a s = _; unfold popInstr
      rw [bind_error (loadAtSp_of_some hf)]
  | prn a =>
    rcases readReg_cases s a with ⟨h1, h2⟩ | ⟨f, hf, h2⟩
    · refine answers_of_completes ?_ ⟨h1, rfl⟩
      show prnInstr a s = _; unfold prnInstr; rw [bind_ok h2, bind_ok (emit_apply _ _)]; rfl
    · refine answers_of_fault ?_ (instrFault_of_readFault hf) rfl
      show prnInstr a s = _; unfold prnInstr; rw [bind_error h2]
  | call a =>
    rcases readReg_cases s spIndex with ⟨h7, _⟩ | ⟨f, hf, _⟩
    · have hd := decrementSp_of_none h7
      have hu7 := readFault_sp_setX s (s.sp - 1)
      by_cases hm : s.pushAddr < 255
      · have hst : storeAtSp ((s.setX spIndex (s.sp - 1)).pc + 2) (s.setX spIndex (s.sp - 1)) =
            .ok () { s.spDown with mem := s.mem.write s.pushAddr (s.pc + 2) } := by
          rw [storeAtSp_of_lt hu7 (by rw [sp_setX_sp]; exact hm)]
          simp [State.spDown, State.pushAddr]
        rcases readReg_cases { s.spDown with mem := s.mem.write s.pushAddr (s.pc + 2) } a with ⟨h1, h2⟩ | ⟨f, hf, h2⟩
        · refine answers_of_completes ?_ ⟨h7, hm, rfl⟩
          show callInstr a s = _; unfold callInstr
          rw [bind_ok hd, bind_ok (readPc_apply _), bind_ok hst, jumpToReg_of_none h1]
          rfl
        · have e : statementsOf (.call a) s = .error f { s.spDown with mem := s.mem.write s.pushAddr (s.pc + 2) } := by
            show callInstr a s = _; unfold callInstr
            rw [bind_ok hd, bind_ok (readPc_apply _), bind_ok hst, jumpToReg_of_some hf]
          refine .inl ⟨_, _, e, ?_, .inr (.inr ⟨h7, ?_, rfl⟩)⟩
          · have hi := instrFault_of_readFault hf
            cases f <;> exact hi
          · intro h0; rw [State.pushAddr, pushAddr_of_zero h0] at hm; omega
      · have e : statementsOf (.call a) s = .error (.memOutOfRange s.pushAddr) s.spDown := by
            show callInstr a s = _; unfold callInstr
            rw [bind_ok hd, bind_ok (readPc_apply _), bind_error (storeAtSp_of_le hu7 (by rw [sp_setX_sp]; simpa [memSize, State.pushAddr] using hm))]
            simp [State.spDown, State.pushAddr]
        refine .inl ⟨_, _, e, toNat_eq_255 hm,
          .inr (.inl ⟨h7, ?_, by rw [State.pushAddr, toNat_eq_255 hm], rfl⟩)⟩
        by_contra h0; exact hm (pushAddr_lt h0)
    · refine answers_of_fault (f := f) ?_ (instrFault_of_readFault hf) (.inl ⟨by rw [hf]; simp, rfl⟩)
      show callInstr a s = _; unfold callInstr
      rw [bind_error (decrementSp_of_some hf)]
  | jmp a =>
    rcases readReg_cases s a with ⟨h1, h2⟩ | ⟨f, hf, h2⟩
    · exact answers_of_completes (jumpToReg_of_none h1) rfl
    · exact answers_of_fault (jumpToReg_of_some hf) (instrFault_of_readFault hf) rfl
  | jeq a =>
    have hj := jumpIf_apply isEqual a s
    by_cases hfl : s.fl = 0b001
    · rw [if_pos (by rw [hfl]; rfl)] at hj
      rcases readReg_cases s a with ⟨h1, h2⟩ | ⟨f, hf, h2⟩
      · refine answers_of_completes (hj.trans (jumpToReg_of_none h1)) ?_
        simp [Completes, hfl]
      · exact answers_of_fault (hj.trans (jumpToReg_of_some hf)) (instrFault_of_readFault hf) rfl
    · have : isEqual s.fl = false := by simpa [isEqual, flEqual] using hfl
      rw [this] at hj
      refine answers_of_completes hj ?_
      simp only [Completes, if_neg hfl]
  | jne a =>
    have hj := jumpIf_apply (fun f => !isEqual f) a s
    by_cases hfl : s.fl = 0b001
    · rw [if_neg (by rw [hfl]; decide)] at hj
      refine answers_of_completes hj ?_
      simp only [Completes, if_pos hfl]
    · have : isEqual s.fl = false := by simpa [isEqual, flEqual] using hfl
      rw [if_pos (by simp [this])] at hj
      rcases readReg_cases s a with ⟨h1, h2⟩ | ⟨f, hf, h2⟩
      · refine answers_of_completes (hj.trans (jumpToReg_of_none h1)) ?_
        simp only [Completes, if_neg hfl]
      · exact answers_of_fault (hj.trans (jumpToReg_of_some hf)) (instrFault_of_readFault hf) rfl
  | not a =>
    rcases readReg_cases s a with ⟨h1, h2⟩ | ⟨f, hf, h2⟩
    · refine answers_of_completes ?_ ⟨h1, rfl⟩
      show notInstr a s = _; unfold notInstr; rw [alu_not, bind_ok (aluNot_of_none (src := a) h1)]; simp
    · refine answers_of_fault ?_ (instrFault_of_readFault hf) rfl
      show notInstr a s = _; unfold notInstr; rw [alu_not, bind_error (aluNot_of_some (src := a) hf)]
  | ldi a imm =>
    by_cases ha : a.toNat < 8
    · refine answers_of_completes ?_ ⟨ha, rfl⟩
      show ldiInstr a imm s = _; unfold ldiInstr; rw [bind_ok (writeReg_of_lt ha)]; simp [immediate]
    · refine answers_of_fault (f := .regOutOfRange a) ?_ trivial rfl
      show ldiInstr a imm s = _; unfold ldiInstr; rw [bind_error (writeReg_of_le (by omega))]
  | add a b => exact answers_of_binary rfl rfl (fun _ h => h) (fun _ => rfl)
  | sub a b => exact answers_of_binary rfl rfl (fun _ h => h) (fun _ => rfl)
  | mul a b => exact answers_of_binary rfl rfl (fun _ h => h) (fun _ => rfl)
  | and a b => exact answers_of_binary rfl rfl (fun _ h => h) (fun _ => rfl)
  | or a b => exact answers_of_binary rfl rfl (fun _ h => h) (fun _ => rfl)
  | xor a b => exact answers_of_binary rfl rfl (fun _ h => h) (fun _ => rfl)
  | shl a b => exact answers_of_binary rfl (g := fun d s => d <<< s.toNat) rfl (fun _ h => h) (fun _ => rfl)
  | shr a b => exact answers_of_binary rfl (g := fun d s => d >>> s.toNat) rfl (fun _ h => h) (fun _ => rfl)
  | cmp a b =>
    rcases readPair_cases s a b with ⟨ha, hb, hp⟩ | ⟨f, hf, hp⟩
    · exact answers_of_completes (aluInstr_of_ok (m := .cmp) (aluCmp_of_none ha hb)) rfl
    · refine answers_of_fault (aluInstr_of_error (m := .cmp) ?_) (instrFault_of_readPair hf) rfl
      rw [alu_cmp]; unfold aluCmp; rw [bind_error hp]
  | mod a b =>
    rcases aluMod_cases a b s with ⟨hn, hm⟩ | ⟨hn, hm⟩
    · exact answers_of_completes (aluInstr_of_ok (m := .mod) hm) (.inl ⟨hn, rfl⟩)
    · rcases readPair_cases s a b with ⟨ha, hb, hp⟩ | ⟨f, hf, hp⟩
      · by_cases h0 : s.x b = 0
        · refine answers_of_fault (f := .modByZero b) (aluInstr_of_error (m := .mod) ?_) hn rfl
          rw [alu_mod, hm]; unfold aluTrueMod; rw [bind_ok hp]; simp [h0]
        · have h5 : alu (opcodeMap .mod) a b s = .ok () (s.setX a (s.x a % s.x b)) := by
            rw [alu_mod, hm]; unfold aluTrueMod; rw [bind_ok hp]
            simp only [if_neg h0]
            rw [writeReg_of_lt (lt_of_readFault ha)]
          exact answers_of_completes (aluInstr_of_ok (m := .mod) h5) (.inr ⟨hn, ha, hb, by simp⟩)
      · refine answers_of_fault (f := f) (aluInstr_of_error (m := .mod) ?_) (instrFault_of_readPair hf) rfl
        rw [alu_mod, hm]; unfold aluTrueMod; rw [bind_error hp]

/-! ### What that says of each kind of state -/

/-- What a completed instruction does to STATE, the fault registers and the rest that a frame keeps. -/
theorem completes_control {i : Instr} {s t : State} (h : Completes i s t) :
    restKept s t ∧ faultRegsKept s t ∧ t.ctrl = if i = .hlt then .halted else s.ctrl := by
  cases i <;> simp only [Completes, BinaryCompletes] at h
  case mod a b =>
    rcases h with ⟨_, rfl⟩ | ⟨_, _, _, rfl⟩ <;> simp [restKept, faultRegsKept]
  case pop a =>
    obtain ⟨_, _, _, u, rfl, rfl⟩ := h
    simp [restKept, faultRegsKept]
  all_goals
    first
    | (subst h; simp [restKept, faultRegsKept])
    | (obtain ⟨_, rfl⟩ := h; simp [restKept, faultRegsKept])
    | (obtain ⟨_, _, rfl⟩ := h; simp [restKept, faultRegsKept, State.spDown])

/-- A completed instruction leaves memory as it was, or it is PUSH or CALL and one cell is written. -/
theorem completes_mem {i : Instr} {s t : State} (h : Completes i s t) :
    t.mem = s.mem ∨ ((∃ a, i = .push a ∨ i = .call a) ∧ s.pushAddr < 255 ∧ ∃ v, t.mem = s.mem.write s.pushAddr v) := by
  cases i <;> simp only [Completes, BinaryCompletes] at h
  case push a => obtain ⟨_, h1, rfl⟩ := h; exact .inr ⟨⟨a, .inl rfl⟩, h1, _, rfl⟩
  case call a => obtain ⟨_, h1, rfl⟩ := h; exact .inr ⟨⟨a, .inr rfl⟩, h1, _, rfl⟩
  case mod a b => rcases h with ⟨_, rfl⟩ | ⟨_, _, _, rfl⟩ <;> simp
  case pop a => obtain ⟨_, _, _, u, rfl, rfl⟩ := h; simp
  all_goals
    first
    | (subst h; simp)
    | (obtain ⟨_, rfl⟩ := h; simp)
    | (obtain ⟨_, _, rfl⟩ := h; simp)

/-- A completed instruction leaves FL as it was, or it is CMP. -/
theorem completes_fl {i : Instr} {s t : State} (h : Completes i s t) :
    t.fl = s.fl ∨ ∃ a b, i = .cmp a b ∧ t.fl = cmpFlags (s.x a) (s.x b) := by
  cases i <;> simp only [Completes, BinaryCompletes] at h
  case cmp a b => subst h; exact .inr ⟨a, b, rfl, rfl⟩
  case mod a b => rcases h with ⟨_, rfl⟩ | ⟨_, _, _, rfl⟩ <;> simp
  case pop a => obtain ⟨_, _, _, u, rfl, rfl⟩ := h; simp
  all_goals
    first
    | (subst h; simp)
    | (obtain ⟨_, rfl⟩ := h; simp)
    | (obtain ⟨_, _, rfl⟩ := h; simp [State.spDown])

/-- A completed instruction leaves OUT as it was, or it is PRN. -/
theorem completes_out {i : Instr} {s t : State} (h : Completes i s t) :
    t.out = s.out ∨ ∃ a, i = .prn a ∧ s.readFault a = none ∧ t.out = s.out ++ [s.x a] := by
  cases i <;> simp only [Completes, BinaryCompletes] at h
  case prn a => obtain ⟨h1, rfl⟩ := h; exact .inr ⟨a, rfl, h1, rfl⟩
  case mod a b => rcases h with ⟨_, rfl⟩ | ⟨_, _, _, rfl⟩ <;> simp
  case pop a => obtain ⟨_, _, _, u, rfl, rfl⟩ := h; simp
  all_goals
    first
    | (subst h; simp)
    | (obtain ⟨_, rfl⟩ := h; simp)
    | (obtain ⟨_, _, rfl⟩ := h; simp [State.spDown])

/-- A completed instruction never takes a validity bit away. -/
theorem completes_isValid {i : Instr} {s t : State} (h : Completes i s t) {r : Byte} (hr : s.isValid r = true) :
    t.isValid r = true := by
  have k := fun v w => isValid_setX_of_isValid s v w hr
  cases i <;> simp only [Completes, BinaryCompletes] at h
  case push a => obtain ⟨_, _, rfl⟩ := h; exact k _ _
  case call a => obtain ⟨_, _, rfl⟩ := h; exact k _ _
  case mod a b => rcases h with ⟨_, rfl⟩ | ⟨_, _, _, rfl⟩; exacts [hr, k _ _]
  case pop a => obtain ⟨_, _, _, u, rfl, rfl⟩ := h; exact isValid_setX_of_isValid _ _ _ (k _ _)
  all_goals
    first
    | (subst h; exact hr)
    | (obtain ⟨_, rfl⟩ := h; exact hr)
    | (obtain ⟨_, rfl⟩ := h; exact k _ _)
    | (obtain ⟨_, _, rfl⟩ := h; exact k _ _)

/-- What the statements before a raise leave alone. -/
theorem faultsIn_control {i : Instr} {f : FaultCause} {s u : State} (h : FaultsIn i f s u) :
    restKept s u ∧ faultRegsKept s u ∧ u.ctrl = s.ctrl ∧ u.pc = s.pc ∧ u.fl = s.fl ∧ u.out = s.out := by
  cases i <;> simp only [FaultsIn] at h
  case push => obtain ⟨_, rfl⟩ | ⟨_, rfl⟩ := h <;> simp [restKept, faultRegsKept, State.spDown]
  case call => obtain ⟨_, rfl⟩ | ⟨_, _, _, rfl⟩ | ⟨_, _, rfl⟩ := h <;> simp [restKept, faultRegsKept, State.spDown]
  all_goals (subst h; simp [restKept, faultRegsKept])

/-- Everything an instruction can do: it takes a fault, or it completes. -/
theorem exec_cases {i : Instr} {s t : State} (h : exec i s = .next t) :
    (∃ f u, t = takeFault f s.ir u ∧ InstrFault s f ∧ FaultsIn i f s u) ∨ Completes i s t := by
  rcases statements_cases i s with ⟨f, u, hs, hf, hu⟩ | ⟨u, hs, hc⟩
  · rw [exec_of_error hs] at h
    cases h
    exact .inl ⟨f, u, by rw [(faultsIn_control hu).1.2.2.2.1], hf, hu⟩
  · rw [exec_of_ok hs] at h
    cases h
    exact .inr hc

/-- The statements before a raise leave memory as it was, or CALL has written its return address. -/
theorem faultsIn_mem {i : Instr} {f : FaultCause} {s u : State} (h : FaultsIn i f s u) :
    u.mem = s.mem ∨ ((∃ a, i = .call a) ∧ s.pushAddr < 255 ∧ ∃ v, u.mem = s.mem.write s.pushAddr v) := by
  cases i <;> simp only [FaultsIn] at h
  case push => obtain ⟨_, rfl⟩ | ⟨_, rfl⟩ := h <;> simp [State.spDown]
  case call a =>
    obtain ⟨_, rfl⟩ | ⟨_, _, _, rfl⟩ | ⟨_, h0, rfl⟩ := h
    · exact .inl rfl
    · simp [State.spDown]
    · exact .inr ⟨⟨a, rfl⟩, pushAddr_lt h0, _, rfl⟩
  all_goals (subst h; exact .inl rfl)

/-- The statements before a raise never take a validity bit away. -/
theorem faultsIn_isValid {i : Instr} {f : FaultCause} {s u : State} (h : FaultsIn i f s u) {r : Byte}
    (hr : s.isValid r = true) : u.isValid r = true := by
  have k := isValid_setX_of_isValid s spIndex (s.sp - 1) hr
  cases i <;> simp only [FaultsIn] at h
  case push => obtain ⟨_, rfl⟩ | ⟨_, rfl⟩ := h; exacts [hr, k]
  case call => obtain ⟨_, rfl⟩ | ⟨_, _, _, rfl⟩ | ⟨_, _, rfl⟩ := h; exacts [hr, k, k]
  all_goals (subst h; exact hr)

/-- Where the window leaves memory the fetch raises, and the fault is taken in the state at the raise, which differs from `s` in
the fetch latches and the host's acts. -/
theorem raised_of_le {s : State} (h : 253 ≤ s.pc.toNat) :
    ∃ op u, op = (if s.pc.toNat = 255 then 0 else s.fetchByte 0) ∧
      u = { s.afterInput with ir := u.ir, opa := u.opa } ∧
      s.raised = some (.memOutOfRange 255, op, u) ∧
      stepRunning s.afterInput = .next (takeFault (.memOutOfRange 255) op u) := by
  unfold State.raised stepRunning
  by_cases h0 : s.pc.toNat = 255
  · refine ⟨0, s.afterInput, by rw [if_pos h0], rfl, ?_⟩
    rw [fetchOpcode_of_le (by simp only [afterInput_pc, memSize]; omega), afterInput_pc, h0]
    exact ⟨rfl, rfl⟩
  · have hlt := s.pc.isLt
    obtain ⟨v, hv⟩ := fetchOperands_of_le (s := { s.afterInput with ir := s.fetchByte 0 })
      (by show s.pc.toNat < 255; omega) (by show 255 ≤ s.pc.toNat + 2; omega)
    refine ⟨s.fetchByte 0, { s.afterInput with ir := s.fetchByte 0, opa := v }, by rw [if_neg h0], rfl, ?_⟩
    rw [fetchOpcode_of_lt (by simp only [afterInput_pc, memSize]; omega)]
    show (match fetchOperands { s.afterInput with ir := s.fetchByte 0 } with
      | .error f u => some (f, s.fetchByte 0, u)
      | .ok (a, b) w => _) = _ ∧ (match fetchOperands { s.afterInput with ir := s.fetchByte 0 } with
      | .error f u => Host.Outcome.next (takeFault f u.ir u)
      | .ok (a, b) w => decodeAndExec (s.fetchByte 0) a b w) = _
    rw [hv]
    exact ⟨rfl, rfl⟩

/-- Where the window lies in memory, what is raised is an unknown opcode or what the instruction's statements raise. -/
theorem raised_of_lt {s : State} (h : s.pc.toNat ≤ 252) :
    s.raised = match s.decoded with
      | .unknown o => some (.unknownOpcode o, s.fetchByte 0, s.fetched)
      | .instr i =>
        match statementsOf i s.fetched with
        | .error f u => some (f, s.fetchByte 0, u)
        | .ok _ _ => none := by
  unfold State.raised
  rw [fetchOpcode_of_lt (by simp only [afterInput_pc, memSize]; omega)]
  show (match fetchOperands { s.afterInput with ir := s.fetchByte 0 } with
    | .error f u => some (f, s.fetchByte 0, u)
    | .ok (a, b) w => _) = _
  rw [fetchOperands_of_lt (by show s.pc.toNat + 2 < 255; omega)]
  rfl

/-- Everything a step in RUNNING can do when no reset is asserted: it executes an instruction in `s.fetched`, or it takes a
fetch fault or an unknown opcode in a state that differs from `s` in the fetch latches and the host's acts only. -/
theorem running_cases {s t : State} (h2 : s.input ≠ .rst) (h3 : s.ctrl = .running) (h : step s = .next t) :
    (∃ i, s.executes i ∧ exec i s.fetched = .next t) ∨
    (∃ f op u, (∀ i, ¬ s.executes i) ∧ (f = .memOutOfRange 255 ∨ ∃ o, f = .unknownOpcode o) ∧ t = takeFault f op u ∧
      op = (if s.pc.toNat = 255 then 0 else s.fetchByte 0) ∧
      u = { s with inputs := s.inputs.tail, ir := u.ir, opa := u.opa, opb := u.opb }) := by
  by_cases h4 : s.pc.toNat ≤ 252
  · rw [step_of_fetches ⟨h2, h3, h4⟩] at h
    unfold decodeAndExec at h
    split at h
    · rename_i i hd
      exact .inl ⟨i, ⟨⟨h2, h3, h4⟩, hd⟩, h⟩
    · rename_i o hd
      cases h
      have hd' : s.decoded = .unknown o := hd
      exact .inr ⟨_, _, _, fun i hi => (by have := hi.2; rw [hd'] at this; cases this), .inr ⟨o, rfl⟩, rfl, (by rw [if_neg (by omega)]; rfl), rfl⟩
  · have h1 : step s = stepRunning s.afterInput := by simp [step, h2, h3]
    obtain ⟨op, u, ho, hu, _, hs⟩ := raised_of_le (s := s) (by omega)
    rw [h1, hs] at h; cases h
    refine .inr ⟨_, op, u, fun i hi => h4 hi.1.2.2, .inl rfl, rfl, ho, ?_⟩
    have e : u.opb = s.opb := by rw [hu]; rfl
    rw [e]
    exact hu

end Sys2Proof.Machine
end

