-- ==== Sys2Proof/Laws/Loader.lean ====
section
/-! SUPPORT. What the loader's functions do (30_encoding.md R94, 70_reset_and_hazards.md R272, R273): comments, white space and
digits of a line, the writes of an image; and runs of several steps in sequence. -/

namespace Sys2Proof.Machine

/-! ### Runs -/

/-- A run begins with a step. -/
theorem runSteps_of_next {k : Nat} {s t : State} (h : step s = .next t) : runSteps (k + 1) s = runSteps k t := by
  rw [runSteps, h]

/-- A run of `j + k` steps is a run of `k` steps from where `j` steps lead. -/
theorem runSteps_add {j : Nat} (k : Nat) {s t : State} (h : runSteps j s = .next t) : runSteps (j + k) s = runSteps k t := by
  induction j generalizing s with
  | zero => cases h; rw [Nat.zero_add]
  | succ j ih =>
    rw [Nat.add_right_comm]
    cases hs : step s with
    | next u => rw [runSteps_of_next hs] at h ⊢; exact ih h
    | fault f => cases f
    | refused r => rw [runSteps, hs] at h; cases h

/-! ### The writes of an image -/

@[simp] theorem loadEventsFrom_nil (addr : Nat) : loadEventsFrom addr [] = [] := rfl

/-- A write at an address with a cell is followed by the rest of the image at the next address. -/
theorem loadEventsFrom_cons_of_lt {addr : Nat} (v : Byte) (image : List Byte) (h : addr < memSize) :
    loadEventsFrom addr (v :: image) = .load (BitVec.ofNat 8 addr) v :: loadEventsFrom (addr + 1) image := by
  simp [loadEventsFrom, inMemory, h]

/-- A write at an address without one is the last. -/
theorem loadEventsFrom_cons_of_le {addr : Nat} (v : Byte) (image : List Byte) (h : memSize ≤ addr) :
    loadEventsFrom addr (v :: image) = [.load (BitVec.ofNat 8 addr) v] := by
  simp [loadEventsFrom, inMemory, Nat.not_lt.mpr h]

/-- The writes of an image contain no start. -/
theorem start_not_mem_loadEventsFrom (addr : Nat) (image : List Byte) : HostInput.start ∉ loadEventsFrom addr image := by
  induction image generalizing addr with
  | nil => simp
  | cons v image ih =>
    by_cases h : addr < memSize
    · rw [loadEventsFrom_cons_of_lt v image h]; simp [ih]
    · rw [loadEventsFrom_cons_of_le v image (Nat.not_lt.mp h)]; simp

/-! ### Comments and white space -/

/-- What stands before the marker is kept, the marker and what follows it are not. -/
theorem stripComment_append {line : List Char} (comment : List Char) (h : commentMarker ∉ line) :
    stripComment (line ++ commentMarker :: comment) = line := by
  have hl : ∀ c ∈ line, (c != commentMarker) = true := fun c hc => by
    have : c ≠ commentMarker := fun e => h (e ▸ hc)
    simpa using this
  unfold stripComment
  rw [List.takeWhile_append_of_pos hl]
  simp

/-- A line without the marker is kept whole. -/
theorem stripComment_of_not_mem {line : List Char} (h : commentMarker ∉ line) : stripComment line = line := by
  unfold stripComment
  rw [List.takeWhile_eq_self_iff]
  intro c hc
  have : c ≠ commentMarker := fun e => h (e ▸ hc)
  simpa using this

theorem dropWhile_isBlank_append {pre : List Char} (line : List Char) (h : pre.all isBlank = true) :
    (pre ++ line).dropWhile isBlank = line.dropWhile isBlank := by
  induction pre with
  | nil => rfl
  | cons c pre ih =>
    simp only [List.all_cons, Bool.and_eq_true] at h
    simp [h.1, ih h.2]

theorem dropWhile_isBlank_of_none {line : List Char} (h : ∀ c ∈ line, isBlank c = false) : line.dropWhile isBlank = line := by
  cases line with
  | nil => rfl
  | cons c cs => simp [h c (by simp)]

/-- White space around a token that has none is stripped. -/
theorem stripBlanks_surround {pre token post : List Char} (h1 : pre.all isBlank = true) (h2 : post.all isBlank = true)
    (ht : ∀ c ∈ token, isBlank c = false) : stripBlanks (pre ++ token ++ post) = token := by
  unfold stripBlanks
  rw [List.append_assoc, dropWhile_isBlank_append _ h1]
  cases token with
  | nil =>
    have := dropWhile_isBlank_append [] h2
    rw [List.append_nil] at this
    rw [List.nil_append, this]; rfl
  | cons c cs =>
    have hd : ((c :: cs) ++ post).dropWhile isBlank = (c :: cs) ++ post := by simp [ht c (by simp)]
    rw [hd, List.reverse_append, dropWhile_isBlank_append _ (by simpa using h2),
      dropWhile_isBlank_of_none (fun c hc => ht c (List.mem_reverse.mp hc)), List.reverse_reverse]

theorem mem_dropWhile_isBlank {line : List Char} {c : Char} (hc : c ∈ line) (hb : isBlank c = false) :
    c ∈ line.dropWhile isBlank := by
  induction line with
  | nil => cases hc
  | cons d ds ih =>
    rw [List.dropWhile_cons]
    split
    · rename_i hd
      rcases List.mem_cons.mp hc with rfl | h
      · rw [hb] at hd; cases hd
      · exact ih h
    · exact hc

/-- Stripping white space loses no other character. -/
theorem mem_stripBlanks {line : List Char} {c : Char} (hc : c ∈ line) (hb : isBlank c = false) : c ∈ stripBlanks line := by
  unfold stripBlanks
  exact List.mem_reverse.mpr (mem_dropWhile_isBlank (List.mem_reverse.mpr (mem_dropWhile_isBlank hc hb)) hb)

/-! ### Digits -/

/-- The digits of a number, most significant first, are read as that number. -/
theorem binaryValue_digits (acc : Nat) (bits : List Bool) :
    binaryValue acc (bits.map (fun d => if d then '1' else '0')) = some (bits.foldl (fun n d => 2 * n + d.toNat) acc) := by
  induction bits generalizing acc with
  | nil => rfl
  | cons d ds ih => cases d <;> simpa [binaryValue] using ih _

/-- A character that is no binary digit spoils the token. -/
theorem binaryValue_of_mem {acc : Nat} {token : List Char} {c : Char} (hc : c ∈ token) (h0 : c ≠ '0') (h1 : c ≠ '1') :
    binaryValue acc token = none := by
  induction token generalizing acc with
  | nil => cases hc
  | cons d ds ih =>
    unfold binaryValue
    rcases List.mem_cons.mp hc with rfl | h
    · simp [h0, h1]
    · split_ifs <;> simp [ih h]

end Sys2Proof.Machine
end

