-- ==== Sys2Proof/Laws/PerInstr.lean ====
section
/-! SUPPORT. What holds of the encoding of each instruction, one lemma per constructor (30_encoding.md R81, R86): the encoding
has the instruction's length, which is 1 plus the top two bits of its first byte. -/

namespace Sys2Proof.Laws.EncodingShape

/-- The encoding has as many bytes as the instruction is long, and its first byte gives that length in its top bits. -/
def Statement (i : Instr) : Prop :=
  (encode i).length = i.mnemonic.length ∧
    i.mnemonic.length = 1 + (((encode i).headD 0) >>> 6).toNat

/-- The top two bits of every opcode byte give the length (R86). -/
theorem length_layout (m : Mnemonic) : m.length = 1 + (opcodeMap m >>> 6).toNat := by cases m <;> decide

theorem hlt : Statement .hlt := ⟨rfl, length_layout _⟩
theorem ret : Statement .ret := ⟨rfl, length_layout _⟩
theorem push (a : Byte) : Statement (.push a) := ⟨rfl, length_layout _⟩
theorem pop (a : Byte) : Statement (.pop a) := ⟨rfl, length_layout _⟩
theorem prn (a : Byte) : Statement (.prn a) := ⟨rfl, length_layout _⟩
theorem call (a : Byte) : Statement (.call a) := ⟨rfl, length_layout _⟩
theorem jmp (a : Byte) : Statement (.jmp a) := ⟨rfl, length_layout _⟩
theorem jeq (a : Byte) : Statement (.jeq a) := ⟨rfl, length_layout _⟩
theorem jne (a : Byte) : Statement (.jne a) := ⟨rfl, length_layout _⟩
theorem not (a : Byte) : Statement (.not a) := ⟨rfl, length_layout _⟩
theorem ldi (a imm : Byte) : Statement (.ldi a imm) := ⟨rfl, length_layout _⟩
theorem add (a b : Byte) : Statement (.add a b) := ⟨rfl, length_layout _⟩
theorem sub (a b : Byte) : Statement (.sub a b) := ⟨rfl, length_layout _⟩
theorem mul (a b : Byte) : Statement (.mul a b) := ⟨rfl, length_layout _⟩
theorem mod (a b : Byte) : Statement (.mod a b) := ⟨rfl, length_layout _⟩
theorem cmp (a b : Byte) : Statement (.cmp a b) := ⟨rfl, length_layout _⟩
theorem and (a b : Byte) : Statement (.and a b) := ⟨rfl, length_layout _⟩
theorem or (a b : Byte) : Statement (.or a b) := ⟨rfl, length_layout _⟩
theorem xor (a b : Byte) : Statement (.xor a b) := ⟨rfl, length_layout _⟩
theorem shl (a b : Byte) : Statement (.shl a b) := ⟨rfl, length_layout _⟩
theorem shr (a b : Byte) : Statement (.shr a b) := ⟨rfl, length_layout _⟩

end Sys2Proof.Laws.EncodingShape
end

