-- ==== Sys2Proof/Tests/Slice0.lean ====
section
/-! SUPPORT. Tests. Expected results come from the spec's own test vectors (95_test_vectors.md) and encoding table
(30_encoding.md R85, R90), never from the model. The `witness_` theorems show, for every statement that has hypotheses, concrete
states that meet them, at the boundary values of its clauses. -/

namespace Sys2Proof.Tests

open Sys2Proof Sys2Proof.Machine

/-! ### Small states -/

/-- `Core`, `Noop`, `Zero`: the settings of State.reset. -/
def core : Params := resetParams

/-- `Extended`, `Noop`, `Zero`. -/
def ext : Params := { resetParams with aluDecodeSet := .extended }

/-- `Extended`, `Modulo`, `Zero`. -/
def extMod : Params := { ext with modSemantics := .modulo }

/-- `Core`, `Noop`, `Unwritten`: the spec's defaults. -/
def unw : Params := { resetParams with regResetPolicy := .unwritten }

/-- Bytes stored at rising addresses. -/
def store : Memory → Nat → List Byte → Memory
  | m, _, [] => m
  | m, a, v :: vs => store (m.write a v) (a + 1) vs

/-- After reset, with registers written, in RUNNING at a program counter with bytes stored there. -/
def run (p : Params) (regs : List (Byte × Byte)) (pc : Byte) (bytes : List Byte) : State :=
  regs.foldl (fun s r => s.setX r.1 r.2)
    { State.resetWith p with pc := pc, ctrl := .running, mem := store [] pc.toNat bytes }

/-- What one step leaves, seen through a projection. -/
def after {α : Type} (s : State) (f : State → α) : Option α :=
  match step s with
  | .next t => some (f t)
  | .fault _ => none
  | .refused _ => none

/-- The next state; the state itself if there were none. -/
def next (s : State) : State :=
  match step s with
  | .next t => t
  | .fault _ => s
  | .refused _ => s

/-- STATE, the fault code, its value, its address and its opcode byte. -/
def faultView (t : State) : Ctrl × BitVec 3 × BitVec 9 × Byte × Byte :=
  (t.ctrl, t.faultCause, t.faultValue, t.faultPc, t.faultOp)

/-! ### Well-formedness: what each check refuses -/

theorem test_wf_refuses_extended_under_core : (Instr.sub 0 1).wf .core = false ∧ (Instr.sub 0 1).wf .extended = true := by decide

theorem test_writable_refuses_register_8 : (Instr.push 8).writable = false ∧ (Instr.push 7).writable = true := by decide

theorem test_writable_refuses_second_register_8 : (Instr.add 0 8).writable = false ∧ (Instr.ldi 0 8).writable = true := by decide

theorem test_wfFrom_refuses_bad_listings :
    Memory.wf [(1, 5), (1, 6)] = false ∧ Memory.wf [(2, 5), (1, 6)] = false ∧ Memory.wf [(1, 0)] = false ∧
      Memory.wf [(255, 1)] = false ∧ Memory.wf [(0, 1), (254, 2)] = true ∧ State.reset.mem.wf = true := by decide

/-! ### Decoding: words written out from R85, in the numbering of the opcode table -/

theorem test_decode_halt : decodeTableWord 8 0b00000001 = some .hlt ∧ encode .hlt = [0b00000001] := by decide

theorem test_decode_control :
    decodeTableWord 8 0b00010001 = some .ret ∧
    decodeTableWord 16 0b00000001_01010000 = some (.call 1) ∧
    decodeTableWord 16 0b00000011_01010100 = some (.jmp 3) ∧
    decodeTableWord 16 0b00000011_01010101 = some (.jeq 3) ∧
    decodeTableWord 16 0b00000011_01010110 = some (.jne 3) := by decide

theorem test_decode_stack :
    decodeTableWord 16 0b00000000_01000101 = some (.push 0) ∧
    decodeTableWord 16 0b11111111_01000110 = some (.pop 255) := by decide

theorem test_decode_load_output :
    decodeTableWord 24 0b00001000_00000101_10000010 = some (.ldi 5 8) ∧
    decodeTableWord 16 0b00000110_01000111 = some (.prn 6) := by decide

theorem test_decode_alu_core :
    decodeTableWord 24 0b00000001_00000010_10100000 = some (.add 2 1) ∧
    decodeTableWord 24 0b00000001_00000010_10100010 = some (.mul 2 1) ∧
    decodeTableWord 24 0b00000001_00000010_10100111 = some (.cmp 2 1) := by decide

theorem test_decode_alu_extended :
    decodeTableWord 16 0b00000010_01101001 = some (.not 2) ∧
    decodeTableWord 24 0b00000001_00000010_10100001 = some (.sub 2 1) ∧
    decodeTableWord 24 0b00000001_00000010_10100100 = some (.mod 2 1) ∧
    decodeTableWord 24 0b00000001_00000010_10101000 = some (.and 2 1) ∧
    decodeTableWord 24 0b00000001_00000010_10101010 = some (.or 2 1) ∧
    decodeTableWord 24 0b00000001_00000010_10101011 = some (.xor 2 1) ∧
    decodeTableWord 24 0b00000001_00000010_10101100 = some (.shl 2 1) ∧
    decodeTableWord 24 0b00000001_00000010_10101101 = some (.shr 2 1) := by decide

theorem test_encode_operand_order : encode (.ldi 0 8) = [0x82, 0x00, 0x08] ∧ encode (.mul 0 1) = [0xA2, 0x00, 0x01] := by decide

theorem test_decode_unknown :
    decode .core 0x00 0 0 = .unknown 0x00 ∧ decode .core 0xA1 0 1 = .unknown 0xA1 ∧ decode .extended 0x52 0 0 = .unknown 0x52 := by
  decide

/-- A placed word runs as the first instruction after reset, also one that only `Extended` decodes. -/
theorem test_withFetchWord :
    after (State.reset.withFetchWord 24 0x080082) (fun t => (t.x 0, t.pc)) = some (8, 3) ∧
    after (State.reset.withFetchWord 16 0x0269) (fun t => (t.x 2, t.pc)) = some (0xFF, 2) := by decide

/-! ### V-ALU and V-EXT -/

theorem test_add : after (run core [(0, 200), (1, 100)] 0x10 [0xA0, 0, 1]) (fun t => (t.x 0, t.fl, t.pc)) = some (44, 0, 0x13) := by
  decide

theorem test_add_same_register : after (run core [(0, 200)] 0x10 [0xA0, 0, 0]) (fun t => t.x 0) = some 144 := by decide

theorem test_mul : after (run core [(0, 15), (1, 17)] 0x10 [0xA2, 0, 1]) (fun t => (t.x 0, t.pc)) = some (255, 0x13) := by decide

theorem test_mul_wraps : after (run core [(0, 16), (1, 16)] 0x10 [0xA2, 0, 1]) (fun t => (t.x 0, t.fl)) = some (0, 0) := by decide

theorem test_cmp_unsigned : after (run core [(0, 128), (1, 127)] 0x10 [0xA7, 0, 1]) (fun t => (t.fl, t.x 0)) = some (0b010, 128) := by
  decide

theorem test_cmp_less_then_equal :
    after (run core [(0, 3), (1, 5)] 0x10 [0xA7, 0, 1]) (fun t => t.fl) = some 0b100 ∧
    after (run core [(2, 9)] 0x10 [0xA7, 2, 2]) (fun t => t.fl) = some 0b001 := by decide

theorem test_sub : after (run ext [(0, 3), (1, 5)] 0x10 [0xA1, 0, 1]) (fun t => (t.x 0, t.x 1, t.pc)) = some (254, 5, 0x13) := by decide

theorem test_sub_under_core :
    after (run core [(0, 3), (1, 5)] 0x10 [0xA1, 0, 1]) faultView = some (.faulted, 1, 0xA1, 0x10, 0xA1) := by decide

theorem test_and : after (run ext [(0, 0xF0), (1, 0x3C)] 0x10 [0xA8, 0, 1]) (fun t => t.x 0) = some 0x30 := by decide

theorem test_or : after (run ext [(0, 0xF0), (1, 0x3C)] 0x10 [0xAA, 0, 1]) (fun t => t.x 0) = some 0xFC := by decide

theorem test_xor : after (run ext [(0, 0xF0), (1, 0x3C)] 0x10 [0xAB, 0, 1]) (fun t => t.x 0) = some 0xCC := by decide

theorem test_not_ignores_third_byte :
    after (run ext [(2, 0xA5)] 0x10 [0x69, 2, 0xEE]) (fun t => (t.x 2, t.pc, t.ctrl)) = some (0x5A, 0x12, .running) := by decide

theorem test_shl_counts :
    after (run ext [(0, 0x81), (1, 1)] 0x10 [0xAC, 0, 1]) (fun t => t.x 0) = some 0x02 ∧
    after (run ext [(0, 0xFF), (1, 255)] 0x10 [0xAC, 0, 1]) (fun t => t.x 0) = some 0 := by decide

theorem test_shl_same_register : after (run ext [(3, 3)] 0x10 [0xAC, 3, 3]) (fun t => t.x 3) = some 24 := by decide

theorem test_shr_counts :
    after (run ext [(0, 0x81), (1, 7)] 0x10 [0xAD, 0, 1]) (fun t => t.x 0) = some 1 ∧
    after (run ext [(0, 0x80), (1, 8)] 0x10 [0xAD, 0, 1]) (fun t => t.x 0) = some 0 := by decide

theorem test_mod_noop :
    after (run ext [(0, 7), (1, 3)] 0x10 [0xA4, 0, 1]) (fun t => (t.x 0, t.pc)) = some (7, 0x13) ∧
    after (run ext [] 0x10 [0xA4, 0xC8, 0xC9]) (fun t => (t.ctrl, t.pc)) = some (.running, 0x13) := by decide

theorem test_mod_modulo :
    after (run extMod [(0, 7), (1, 3)] 0x10 [0xA4, 0, 1]) (fun t => t.x 0) = some 1 ∧
    after (run extMod [(0, 7), (1, 0)] 0x10 [0xA4, 0, 1]) faultView = some (.faulted, 6, 1, 0x10, 0xA4) ∧
    after (run extMod [] 0x10 [0xA4, 0xC8, 0xC9]) faultView = some (.faulted, 4, 200, 0x10, 0xA4) := by decide

/-! ### V-LDPR -/

theorem test_ldi : after (run core [] 0x10 [0x82, 5, 0xFF]) (fun t => (t.x 5, t.isValid 5, t.pc)) = some (255, true, 0x13) := by decide

theorem test_ldi_register_8 : after (run core [] 0x10 [0x82, 8, 5]) faultView = some (.faulted, 4, 8, 0x10, 0x82) := by decide

theorem test_prn :
    after (run core [] 0x10 [0x47, 7]) (fun t => (t.out, t.pc)) = some ([244], 0x12) ∧
    after (run core [] 0x10 [0x47, 3]) (fun t => t.out) = some [0] := by decide

theorem test_prn_unwritten :
    after (run unw [] 0x10 [0x47, 3]) (fun t => (faultView t, t.out)) = some ((.faulted, 5, 3, 0x10, 0x47), []) := by decide

/-! ### V-STK -/

theorem test_push :
    after (run core [(0, 42)] 0x10 [0x45, 0]) (fun t => (t.x 7, t.mem.read 0xF3, t.pc)) = some (0xF3, 42, 0x12) ∧
    after (run core [] 0x10 [0x45, 7]) (fun t => t.mem.read 0xF3) = some 0xF3 := by decide

theorem test_push_faults :
    after (run core [(7, 0), (0, 9)] 0x10 [0x45, 0]) (fun t => (t.x 7, faultView t)) =
      some (255, .faulted, 3, 255, 0x10, 0x45) ∧
    after (run core [] 0x10 [0x45, 9]) (fun t => (t.x 7, t.mem.read 0xF3, t.faultCause, t.faultValue)) =
      some (0xF3, 0, 4, 9) := by decide

theorem test_pop :
    after (run core [(7, 0x11)] 0x10 [0x46, 1]) (fun t => (t.x 1, t.x 7, t.mem.read 0x11)) = some (1, 0x12, 1) ∧
    after (run core [(7, 0x12)] 0x10 [0x46, 7, 0x10]) (fun t => t.x 7) = some 0x11 := by decide

theorem test_pop_checks_the_stack_address_first :
    after (run core [(7, 0xFF)] 0x10 [0x46, 9]) (fun t => (t.x 7, faultView t)) = some (255, .faulted, 3, 255, 0x10, 0x46) := by
  decide

/-! ### V-CT -/

theorem test_call :
    after (run core [(1, 0x0E)] 0x06 [0x50, 1]) (fun t => (t.x 7, t.mem.read 0xF3, t.pc)) = some (0xF3, 0x08, 0x0E) ∧
    after (run core [] 0x10 [0x50, 7]) (fun t => (t.x 7, t.mem.read 0xF3, t.pc)) = some (0xF3, 0x12, 0xF3) := by decide

theorem test_call_faults :
    after (run core [(7, 0), (1, 0x20)] 0x10 [0x50, 1]) (fun t => (t.x 7, faultView t)) =
      some (255, .faulted, 3, 255, 0x10, 0x50) ∧
    after (run core [] 0x10 [0x50, 9]) (fun t => (t.x 7, t.mem.read 0xF3, t.faultCause, t.faultValue)) =
      some (0xF3, 0x12, 4, 9) := by decide

theorem test_ret : after (run core [(7, 0x11)] 0x10 [0x11, 0x08]) (fun t => (t.pc, t.x 7)) = some (0x08, 0x12) := by decide

theorem test_ret_faults : after (run core [(7, 0xFF)] 0x10 [0x11]) (fun t => (t.x 7, faultView t)) =
    some (255, .faulted, 3, 255, 0x10, 0x11) := by decide

theorem test_jmp : after (run core [(3, 0x0C)] 0x10 [0x54, 3]) (fun t => t.pc) = some 0x0C := by decide

theorem test_jmp_unwritten : after (run unw [] 0x10 [0x54, 3]) (fun t => (t.pc, faultView t)) = some (0x10, .faulted, 5, 3, 0x10, 0x54) := by
  decide

theorem test_jeq :
    after { run core [(3, 0x20)] 0x10 [0x55, 3] with fl := 0b001 } (fun t => t.pc) = some 0x20 ∧
    after { run core [(3, 0x20)] 0x10 [0x55, 3] with fl := 0b100 } (fun t => t.pc) = some 0x12 := by decide

theorem test_jeq_reads_only_when_taken :
    after (run core [] 0x10 [0x55, 9]) (fun t => (t.pc, t.ctrl)) = some (0x12, .running) ∧
    after { run core [] 0x10 [0x55, 9] with fl := 0b001 } faultView = some (.faulted, 4, 9, 0x10, 0x55) := by decide

theorem test_jne :
    after { run core [(3, 0x0C)] 0x10 [0x56, 3] with fl := 0b100 } (fun t => t.pc) = some 0x0C ∧
    after { run core [(3, 0x0C)] 0x10 [0x56, 3] with fl := 0b001 } (fun t => t.pc) = some 0x12 := by decide

theorem test_jne_reads_only_when_taken :
    after (run core [] 0x10 [0x56, 9]) faultView = some (.faulted, 4, 9, 0x10, 0x56) ∧
    after { run core [] 0x10 [0x56, 9] with fl := 0b001 } (fun t => (t.pc, t.ctrl)) = some (0x12, .running) := by decide

/-! ### V-HLT and the fetch window -/

theorem test_hlt_at_252 : after (run core [] 252 [1]) (fun t => (t.ctrl, t.pc)) = some (.halted, 253) := by decide

theorem test_hlt_at_253_never_executes : after (run core [] 253 [1]) faultView = some (.faulted, 3, 255, 253, 1) := by decide

theorem test_fetch_at_255 : after (run core [] 255 []) faultView = some (.faulted, 3, 255, 255, 0) := by decide

theorem test_halted_ignores_start :
    after { run core [] 0x0B [1] with ctrl := .halted, inputs := [.start] } (fun t => (t.ctrl, t.pc)) = some (.halted, 0x0B) := by decide

/-! ### V-MEM and the loader -/

theorem test_load_at_255 :
    after { State.reset with inputs := [.load 255 7] } (fun t => (t.loadErr, t.mem, t.ctrl)) = some (true, [], .idle) ∧
    after { State.reset with inputs := [.load 254 7] } (fun t => (t.loadErr, t.mem.read 254)) = some (false, 7) := by decide

/-- R94, R273: the writes end with the one that fails at 255. -/
theorem test_overlong_image_ends_at_255 :
    loadEventsFrom 254 [1, 2, 3] = [.load 254 1, .load 255 2] ∧ loadEventsFrom 253 [1, 2] = [.load 253 1, .load 254 2] := by decide

theorem test_start :
    after { State.reset with inputs := [.start] } (fun t => t.ctrl) = some .running ∧
    after { State.reset with inputs := [.start], loadErr := true } (fun t => t.ctrl) = some .idle := by decide

theorem test_dbg_mem_at_255 : dbgMem 255 State.reset = some 0 ∧ dbgReg 7 State.reset = some 0xF4 ∧ statePort State.reset = 0 := by
  decide

theorem test_loader_lines :
    parseLine "10000010 # LDI R0,8".toList = .byte 0x82 ∧ parseLine "2".toList = .malformed ∧
    parseLine "100000000".toList = .malformed ∧ parseLine "  # nothing".toList = .blank ∧
    parseLine "10000010".toList = .byte 0x82 := by decide

/-! ### Witnesses: states that meet the hypotheses of each statement, at the boundary values of its clauses -/

/-- R0 = 3, R1 = 5, R6 = 0, R7 = 0xF4, every register written, under the settings given. -/
def full (p : Params) : State :=
  run p [(0, 3), (1, 5), (2, 8), (3, 255), (4, 0), (5, 0x20), (6, 0)] 0x10 []

/-- `full` with another stack pointer. -/
def withSp (v : Byte) : State := (full core).setX 7 v

/-- A step's own next state answers it, for a state whose step is evaluated. -/
abbrev steps (s : State) : Prop := step s = .next (next s)

theorem witness_ResetGivesStatedValues :
    ({ full core with inputs := [.rst] } : State).input = .rst ∧ (full core).params.regResetPolicy = .zero ∧
    ({ full unw with inputs := [.rst] } : State).input = .rst ∧ (6 : Byte).toNat < 7 ∧ (7 : Byte).toNat < 8 := by decide

theorem witness_StepKeepsInvariant : (run core [] 252 [1]).inv = true ∧ steps (run core [] 252 [1]) := ⟨by decide, rfl⟩

theorem witness_StepKeepsInvariant_fault :
    (run unw [] 0x10 [0x47, 3]).inv = true ∧ steps (run unw [] 0x10 [0x47, 3]) := ⟨by decide, rfl⟩

theorem witness_DecodeInvertsEncode :
    Function.Injective opcodeMap ∧ (Instr.shr 255 255).wf .extended = true ∧
    encodeWith opcodeMap (.shr 255 255) ++ [] = 0xAD :: 255 :: 255 :: [] ∧
    encodeWith opcodeMap .hlt ++ [9, 8, 7] = 0x01 :: 9 :: 8 :: [7] :=
  ⟨by intro a b; cases a <;> cases b <;> decide, by decide, by decide, by decide⟩

theorem witness_DecodeSelectsByOpcodeAlone :
    (decodedUnder .core .cmp = true ∧ opcodeMap .cmp = 0xA7) ∧
    (∀ m ∈ Mnemonic.all, decodedUnder .core m = true → opcodeMap m ≠ 0xA1) := by decide

theorem witness_BytesPastLengthAreIgnored :
    decode .core 0x01 7 7 = .instr .hlt ∧ Instr.hlt.mnemonic.length = 1 ∧
    decode .core 0x47 7 9 = .instr (.prn 7) ∧ (Instr.prn 7).mnemonic.length ≤ 2 := by decide

theorem witness_FetchReadsThreeBytesOrFaults :
    ((run core [] 252 [1]).input ≠ .rst ∧ (run core [] 252 [1]).ctrl = .running ∧ (run core [] 252 [1]).pc.toNat ≤ 252) ∧
    ((run core [] 253 [1]).input ≠ .rst ∧ (run core [] 253 [1]).ctrl = .running ∧ 253 ≤ (run core [] 253 [1]).pc.toNat) ∧
    253 ≤ (run core [] 255 []).pc.toNat := by decide

theorem witness_UnknownOpcodeFaultsWithoutEffect :
    ((run core [] 252 [0xFF]).input ≠ .rst ∧ (run core [] 252 [0xFF]).ctrl = .running ∧
      (run core [] 252 [0xFF]).decoded = .unknown 0xFF ∧ (run core [] 252 [0xFF]).pc.toNat ≤ 252) ∧
    ((run core [] 253 [0xFF]).decoded = .unknown 0xFF ∧ 253 ≤ (run core [] 253 [0xFF]).pc.toNat) := by decide

theorem witness_StepExecutesDecodedInstruction :
    (run core [] 252 [0x82, 0, 8]).input ≠ .rst ∧ (run core [] 252 [0x82, 0, 8]).ctrl = .running ∧
    (run core [] 252 [0x82, 0, 8]).pc.toNat ≤ 252 ∧
    decode .core ((run core [] 252 [0x82, 0, 8]).mem.read 252) ((run core [] 252 [0x82, 0, 8]).mem.read 253)
      ((run core [] 252 [0x82, 0, 8]).mem.read 254) = .instr (.ldi 0 8) := by decide

theorem witness_PlacedWordRunsNext :
    State.reset.mem.wf = true ∧ decodeTableWord 24 0x0100A1 = some (.sub 0 1) ∧ decodeTableWord 8 0x01 = some .hlt := by decide

theorem witness_StateMachineTransitions_idle :
    steps { full core with inputs := [.rst] } ∧ steps { State.reset with inputs := [.start] } ∧
    steps { State.reset with inputs := [.start], loadErr := true } ∧ steps State.reset := ⟨rfl, rfl, rfl, rfl⟩

theorem witness_StateMachineTransitions_running :
    (steps (run core [] 252 [1]) ∧ (run core [] 252 [1]).executes .hlt) ∧
    (steps (run core [] 0x10 [0x82, 0, 8]) ∧ (next (run core [] 0x10 [0x82, 0, 8])).ctrl = .running) ∧
    (steps (run core [] 255 []) ∧ (next (run core [] 255 [])).ctrl = .faulted) :=
  ⟨⟨rfl, by decide⟩, ⟨rfl, by decide⟩, ⟨rfl, by decide⟩⟩

theorem witness_OnlyResetClearsAFault :
    (steps (next (run core [] 255 [])) ∧ (next (run core [] 255 [])).input ≠ .rst ∧
      (next (run core [] 255 [])).ctrl = .faulted ∧ (next (run core [] 255 [])).faultCause ≠ 0) ∧
    (steps { next (run core [] 255 []) with inputs := [.rst] }) ∧
    (steps (next (run core [] 252 [1])) ∧ (next (run core [] 252 [1])).ctrl = .halted) :=
  ⟨⟨rfl, by decide, by decide, by decide⟩, rfl, ⟨rfl, by decide⟩⟩

theorem witness_StepKeepsParametersAndReadsOneInput : steps { State.reset with inputs := [.load 0 1, .start] } := rfl

theorem witness_OnlyCmpWritesFlagsOnlyJeqJneReadThem :
    (steps (run core [] 0x10 [0xA7, 0, 1]) ∧ (next (run core [] 0x10 [0xA7, 0, 1])).fl ≠ (run core [] 0x10 [0xA7, 0, 1]).fl) ∧
    ((Instr.push 0).mnemonic ≠ .jeq ∧ (Instr.push 0).mnemonic ≠ .jne ∧
      (∃ t, exec (.push 0) (full core) = .next t) ∧ ∃ u, exec (.push 0) { full core with fl := 0b100 } = .next u) :=
  ⟨⟨rfl, by decide⟩, by decide, by decide, ⟨_, rfl⟩, ⟨_, rfl⟩⟩

theorem witness_OnlyPushCallAndLoadWriteMemory :
    (steps (run core [(7, 255)] 0x10 [0x45, 7]) ∧ (next (run core [(7, 255)] 0x10 [0x45, 7])).mem.read 254 ≠ 0) ∧
    (steps (run core [(7, 1)] 0x10 [0x50, 7]) ∧ (next (run core [(7, 1)] 0x10 [0x50, 7])).mem.read 0 ≠ 0) ∧
    (steps { State.reset with inputs := [.load 254 9] } ∧ (next { State.reset with inputs := [.load 254 9] }).mem.read 254 ≠ 0) :=
  ⟨⟨rfl, by decide⟩, ⟨rfl, by decide⟩, ⟨rfl, by decide⟩⟩

theorem witness_OnlyPrnProducesOutput :
    (steps (run core [] 0x10 [0x47, 7]) ∧ (run core [] 0x10 [0x47, 7]).executes (.prn 7) ∧
      (run core [] 0x10 [0x47, 7]).readFault 7 = none) ∧
    (steps (run core [] 0x10 [0x47, 8]) ∧ (run core [] 0x10 [0x47, 8]).executes (.prn 8) ∧
      (run core [] 0x10 [0x47, 8]).readFault 8 ≠ none) :=
  ⟨⟨rfl, by decide, by decide⟩, ⟨rfl, by decide, by decide⟩⟩

theorem witness_ProgramCounterUpdate :
    ((run core [] 252 [0x82, 7, 9]).executes (.ldi 7 9) ∧ (next (run core [] 252 [0x82, 7, 9])).ctrl ≠ .faulted) ∧
    ((run core [] 0x10 [0x50, 7]).executes (.call 7) ∧ (next (run core [] 0x10 [0x50, 7])).ctrl ≠ .faulted) ∧
    ((run core [(7, 254)] 0x10 [0x11]).executes .ret ∧ (next (run core [(7, 254)] 0x10 [0x11])).ctrl ≠ .faulted) ∧
    ((run core [] 0x10 [0x54, 7]).executes (.jmp 7) ∧ (next (run core [] 0x10 [0x54, 7])).ctrl ≠ .faulted) ∧
    ((run core [] 0x10 [0x55, 9]).executes (.jeq 9) ∧ (next (run core [] 0x10 [0x55, 9])).ctrl ≠ .faulted) ∧
    ((run core [] 0x10 [0x56, 9]).executes (.jne 9) ∧ (next (run core [] 0x10 [0x56, 9])).ctrl = .faulted) := by decide

theorem witness_ProgramCounterUpdate_steps :
    steps (run core [] 252 [0x82, 7, 9]) ∧ steps (run core [] 0x10 [0x50, 7]) ∧ steps (run core [(7, 254)] 0x10 [0x11]) ∧
    steps (run core [] 0x10 [0x54, 7]) ∧ steps (run core [] 0x10 [0x55, 9]) ∧ steps (run core [] 0x10 [0x56, 9]) :=
  ⟨rfl, rfl, rfl, rfl, rfl, rfl⟩

theorem witness_FaultCodesAndValues : (511 : Nat) < 512 := by decide

theorem witness_FaultEntryRecordsAndStops :
    ((run core [] 255 []).input ≠ .rst ∧ (run core [] 255 []).ctrl = .running ∧
      (run core [] 255 []).raised = some (.memOutOfRange 255, 0, run core [] 255 [])) ∧
    ((run core [] 254 [7]).raised.map (fun r => (r.1, r.2.1)) = some (.memOutOfRange 255, 7)) ∧
    ((run core [] 252 [0xFF]).raised.map (fun r => (r.1, r.2.1)) = some (.unknownOpcode 0xFF, 0xFF)) ∧
    ((run core [] 0x10 [0x45, 8]).raised.map (fun r => (r.1, r.2.2.x 7)) = some (.regOutOfRange 8, 0xF3)) ∧
    (run core [] 252 [1]).raised = none ∧
    ((next (run core [] 255 [])).ctrl = .faulted ∧ (next (run core [] 255 [])).input ≠ .rst) := by decide

theorem witness_FaultEntryRecordsAndStops_exec :
    statementsOf (.prn 8) (full core) = .error (.regOutOfRange 8) (full core) ∧
    ∃ u, statementsOf (.prn 7) (full core) = .ok () u := ⟨rfl, ⟨_, rfl⟩⟩

theorem witness_FaultsKeepPartialEffects_fetch :
    ((run core [] 253 []).input ≠ .rst ∧ (run core [] 253 []).ctrl = .running ∧ 253 ≤ (run core [] 253 []).pc.toNat ∧
      steps (run core [] 253 [])) ∧
    ((run core [] 252 [0]).decoded = .unknown ((run core [] 252 [0]).fetchByte 0) ∧ steps (run core [] 252 [0])) :=
  ⟨⟨by decide, by decide, by decide, rfl⟩, by decide, rfl⟩

theorem witness_FaultsKeepPartialEffects_exec :
    (withSp 0).ctrl = .running ∧ (withSp 0).isValid 7 = true ∧ (withSp 0).x 7 = 0 ∧
    (∃ t, exec (.push 0) (withSp 0) = .next t ∧ t.ctrl = .faulted) ∧
    (∃ t, exec (.call 0) (withSp 0) = .next t ∧ t.ctrl = .faulted) ∧
    (withSp 1).x 7 ≠ 0 ∧ (∃ t, exec (.call 8) (withSp 1) = .next t ∧ t.ctrl = .faulted) ∧
    (∃ t, exec (.pop 0) (withSp 255) = .next t ∧ t.ctrl = .faulted) :=
  ⟨by decide, by decide, by decide, ⟨_, rfl, rfl⟩, ⟨_, rfl, rfl⟩, by decide, ⟨_, rfl, rfl⟩, ⟨_, rfl, rfl⟩⟩

theorem witness_BinaryAluChecksLeftOperandFirst :
    (full core).readFault 8 = some (.regOutOfRange 8) ∧ (full core).readFault 7 = none ∧
    (run unw [] 0x10 []).readFault 0 = some (.unwrittenRegisterRead 0) := by decide

theorem witness_UnsupportedAluOperation :
    (∀ m ∈ [Mnemonic.add, .sub, .mul, .mod, .cmp, .and, .or, .xor, .not, .shl, .shr], opcodeMap m ≠ 0xA3) ∧
    (full core).ctrl = .running ∧ ∃ t, exec (.add 8 0) (full core) = .next t ∧ t.ctrl = .faulted :=
  ⟨by decide, by decide, ⟨_, rfl, rfl⟩⟩

/-- For ADD, SUB, MUL, CMP, AND, OR, XOR, NOT, SHL, SHR, MOD and the same-register statement: readable operands under both
policies, in every order of their values, with the shift counts 0, 7 or less, 8 and 255 and the divisors 0 and 5. -/
theorem witness_alu_operands :
    (full unw).readFault 0 = none ∧ (full unw).readFault 7 = none ∧ (full core).readFault 0 = none ∧
    ((full unw).x 0).toNat < ((full unw).x 1).toNat ∧ (full unw).x 4 = 0 ∧ (full unw).x 2 = 8 ∧ (full unw).x 3 = 255 ∧
    (full unw).x 4 = (full unw).x 6 := by decide

theorem witness_CmpResult_others : (0x00 : Byte) ≠ opcodeMap .cmp ∧ opcodeMap .add ≠ opcodeMap .cmp ∧
    ∃ t, alu (opcodeMap .add) 0 1 (full core) = .ok () t := ⟨by decide, by decide, ⟨_, rfl⟩⟩

theorem witness_NotResult : (full core).readFault 7 = none ∧ (full core).readFault 8 = some (.regOutOfRange 8) := by decide

theorem witness_ModFollowsItsSemantics :
    (full ext).params.modSemantics = .noop ∧ (full extMod).params.modSemantics = .modulo ∧
    (full extMod).readFault 0 = none ∧ (full extMod).readFault 1 = none ∧ (full extMod).x 1 ≠ 0 ∧
    (full extMod).readFault 4 = none ∧ (full extMod).x 4 = 0 ∧
    (full extMod).readFault 8 = some (.regOutOfRange 8) := by decide

theorem witness_LdiRule : (7 : Byte).toNat < 8 ∧ 8 ≤ (8 : Byte).toNat := by decide

/-- PRN and JMP. -/
theorem witness_PrnRule : (full core).readFault 7 = none ∧ (full core).readFault 8 = some (.regOutOfRange 8) ∧
    (run unw [] 0x10 []).readFault 6 = some (.unwrittenRegisterRead 6) := by decide

/-- PUSH and CALL: the stack pointers 1, 255 and 0, the registers 7 and 8. -/
theorem witness_PushRule_CallRule :
    (withSp 1).readFault 7 = none ∧ (withSp 1).x 7 ≠ 0 ∧ ((withSp 1).setX 7 ((withSp 1).x 7 - 1)).readFault 7 = none ∧
    ((withSp 1).setX 7 ((withSp 1).x 7 - 1)).readFault 8 = some (.regOutOfRange 8) ∧
    (withSp 255).readFault 7 = none ∧ (withSp 255).x 7 ≠ 0 ∧
    (withSp 0).readFault 7 = none ∧ (withSp 0).x 7 = 0 := by decide

/-- POP and RET: the stack pointers 254 and 255, the registers 7 and 8. -/
theorem witness_PopRule_RetRule :
    (withSp 254).readFault 7 = none ∧ (withSp 254).x 7 ≠ 255 ∧ (7 : Byte).toNat < 8 ∧ 8 ≤ (8 : Byte).toNat ∧
    (withSp 255).readFault 7 = none ∧ (withSp 255).x 7 = 255 := by decide

/-- JEQ and JNE: every legal FL. -/
theorem witness_JeqRule_JneRule :
    ({ full core with fl := 0b001 } : State).fl = 0b001 ∧ ({ full core with fl := 0b001 } : State).readFault 7 = none ∧
    (full core).fl ≠ 0b001 ∧ (full core).readFault 7 = none ∧
    ({ full core with fl := 0b001 } : State).readFault 8 = some (.regOutOfRange 8) := by decide

theorem witness_HltRule :
    ((run core [] 252 [1]).executes .hlt ∧ steps (run core [] 252 [1]) ∧ (next (run core [] 252 [1])).input ≠ .rst) ∧
    ((run core [] 253 [1]).input ≠ .rst ∧ (run core [] 253 [1]).ctrl = .running ∧ 253 ≤ (run core [] 253 [1]).pc.toNat ∧
      steps (run core [] 253 [1])) :=
  ⟨⟨by decide, rfl, by decide⟩, by decide, by decide, by decide, rfl⟩

theorem witness_PushThenPopCopiesRegister :
    (6 : Byte) ≠ 7 ∧ (0 : Byte) ≠ 7 ∧ (0 : Byte).toNat < 8 ∧ (withSp 255).readFault 6 = none ∧
    (withSp 255).readFault 7 = none ∧ (withSp 255).x 7 ≠ 0 ∧ (withSp 255).mem.wf = true := by decide

theorem witness_CallThenRetReturns :
    (withSp 1).readFault 7 = none ∧ (withSp 1).readFault 5 = none ∧ (withSp 1).x 7 ≠ 0 ∧ (withSp 1).mem.wf = true ∧
    ∃ t, exec (.call 5) (withSp 1) = .next t ∧ t.readFault 7 = none ∧ t.x 7 = 0 :=
  ⟨by decide, by decide, by decide, by decide, ⟨_, rfl, by decide, by decide⟩⟩

theorem witness_RegisterWritingFrame :
    (∃ t, exec (Mnemonic.withOperands .ldi 7 9) (full core) = .next t) ∧
    (∃ t, exec (Mnemonic.withOperands .mod 0 1) (full extMod) = .next t) ∧
    (∃ t, exec (Mnemonic.withOperands .mod 0 1) (full ext) = .next t) ∧ (full ext).params.modSemantics = .noop ∧
    (∃ t, exec (Mnemonic.withOperands .not 8 0) (full ext) = .next t) :=
  ⟨⟨_, rfl⟩, ⟨_, rfl⟩, ⟨_, rfl⟩, by decide, ⟨_, rfl⟩⟩

theorem witness_NoRegisterFrame :
    (∃ t, exec (Mnemonic.withOperands .cmp 0 1) (full core) = .next t) ∧
    (∃ t, exec (Mnemonic.withOperands .prn 8 0) (full core) = .next t) ∧
    (∃ t, exec (Mnemonic.withOperands .hlt 0 0) (full core) = .next t) := ⟨⟨_, rfl⟩, ⟨_, rfl⟩, ⟨_, rfl⟩⟩

theorem witness_StackStoreFrame :
    (∃ t, exec (Mnemonic.withOperands .push 7 0) (withSp 1) = .next t) ∧
    (∃ t, exec (Mnemonic.withOperands .call 8 0) (withSp 255) = .next t) ∧
    (∃ t, exec (Mnemonic.withOperands .push 0 0) (withSp 0) = .next t) := ⟨⟨_, rfl⟩, ⟨_, rfl⟩, ⟨_, rfl⟩⟩

theorem witness_StackLoadFrame :
    (∃ t, exec (.pop 7) (withSp 254) = .next t) ∧ (∃ t, exec .ret (withSp 254) = .next t) ∧
    (∃ t, exec .ret (withSp 255) = .next t) := ⟨⟨_, rfl⟩, ⟨_, rfl⟩, ⟨_, rfl⟩⟩

theorem witness_BootRunsLoadedImage :
    (parseImage ["10000010 # LDI".toList, "# only a comment".toList, "00000000".toList] = some [0x82, 0] ∧
      ([0x82, 0] : List Byte).length ≤ 255) ∧
    parseImage ["10000010".toList, "2".toList] = none := by decide

theorem witness_BootRunsLoadedImage_255 :
    parseImage (List.replicate 255 ['1']) = some (List.replicate 255 1) ∧ (List.replicate 255 (1 : Byte)).length ≤ 255 :=
  ⟨by decide +kernel, by rw [List.length_replicate]⟩

theorem witness_OverlongImageNeverStarts :
    255 < (List.replicate 256 (1 : Byte)).length ∧ parseImage (List.replicate 256 ['1']) = some (List.replicate 256 1) :=
  ⟨by rw [List.length_replicate]; decide, by decide +kernel⟩

theorem witness_HostAccessByState :
    (({ State.reset with inputs := [.load 254 1] } : State).inputs = [.load 254 1] ∧ State.reset.ctrl = .idle ∧
      (254 : Byte).toNat < 255 ∧ (255 : Byte).toNat = 255) ∧
    (State.reset.loadErr = false ∧ ({ State.reset with loadErr := true } : State).loadErr = true) ∧
    ((full core).ctrl = .running ∧ ({ full core with ctrl := .halted } : State).ctrl ≠ .running) ∧
    (∀ sel : BitVec 3, ({ full unw with ctrl := .faulted } : State).readFault (sel.zeroExtend 8) = none) := by decide

theorem witness_LoaderLineGivesItsByte :
    [' ', '\t'].all isBlank = true ∧ ['\r'].all isBlank = true ∧ (∃ comment, ['#', 'x'] = '#' :: comment) ∧
    [true, false, false, false, false, false, false, false, false].foldl (fun n (d : Bool) => 2 * n + d.toNat) 0 = 256 ∧
    [true, true, true, true, true, true, true, true].foldl (fun n (d : Bool) => 2 * n + d.toNat) 0 = 255 ∧
    ('#' ∉ ['1', ' ', '2'] ∧ isBlank '2' = false ∧ '2' ≠ '0' ∧ '2' ≠ '1') :=
  ⟨by decide, by decide, ⟨_, rfl⟩, by decide, by decide, by decide⟩

theorem witness_LoaderImageIsTheBytesInOrder :
    (∃ l ∈ [['1'], ['2']], parseLine l = .malformed) ∧ (∀ l ∈ [['1'], ['#']], parseLine l ≠ .malformed) := by decide

theorem witness_RegisterAccess :
    (7 : Byte).toNat < 8 ∧ 8 ≤ (8 : Byte).toNat ∧ (full core).params.regResetPolicy = .zero ∧
    (run unw [] 0 []).isValid 7 = true ∧ (run unw [] 0 []).params.regResetPolicy = .unwritten ∧
    (run unw [] 0 []).isValid 6 = false := by decide

theorem witness_MemoryAccess : (run core [] 252 [1, 2, 3]).mem.wf = true ∧ (254 : Nat) < 255 ∧ 255 ≤ (255 : Nat) := by decide

end Sys2Proof.Tests
end

section
/-! SUPPORT. Who writes FL and who reads it (10_state.md R38). -/

namespace Sys2Proof.Machine

/-! ### Who writes FL -/

/-- In IDLE no act of the host but reset touches FL. -/
theorem idleStep_fl {e : HostInput} (s : State) (he : e ≠ .rst) : (idleStep e s).fl = s.fl := by
  cases e with
  | quiet => rfl
  | rst => exact absurd rfl he
  | load addr data => simp only [idleStep, loadByte]; split <;> rfl
  | start => simp only [idleStep, startBlock]; split <;> rfl

/-- An instruction leaves FL as it was, or it is CMP. -/
theorem exec_fl {i : Instr} {s t : State} (h : exec i s = .next t) : t.fl = s.fl ∨ ∃ a b, i = .cmp a b := by
  rcases exec_cases h with ⟨f, u, rfl, _, hu⟩ | hc
  · obtain ⟨_, _, _, _, hfl, _⟩ := faultsIn_control hu
    exact .inl hfl
  · rcases completes_fl hc with hfl | ⟨a, b, hi, _⟩
    · exact .inl hfl
    · exact .inr ⟨a, b, hi⟩

/-- A step leaves FL as it was, or it is a reset, or it executes CMP. -/
theorem step_fl {s t : State} (h : step s = .next t) :
    t.fl = s.fl ∨ s.input = .rst ∨ ∃ a b, s.executes (.cmp a b) := by
  rcases step_cases s with ⟨hr, _⟩ | ⟨hr, _, hs⟩ | ⟨hr, hc, _⟩ | ⟨_, _, hs⟩
  · exact .inr (.inl hr)
  · rw [hs] at h; cases h
    exact .inl (idleStep_fl _ hr)
  · rcases running_cases hr hc h with ⟨i, hi, he⟩ | ⟨f, op, u, _, _, rfl, _, hu⟩
    · rcases exec_fl he with hfl | ⟨a, b, rfl⟩
      · exact .inl hfl
      · exact .inr (.inr ⟨a, b, hi⟩)
    · exact .inl (by rw [takeFault_fl, hu])
  · rw [hs] at h; cases h
    exact .inl rfl

/-! ### Statements that do not read FL

`IgnoresFl act`: changing FL before `act` changes neither the value it gives, nor the fault it raises, nor anything but FL in
the state after it. It holds of a sequence when it holds of its parts, so it is proved once per primitive and follows from there
for every instruction that does not use `readFl`. -/

/-- A register write neither reads nor writes FL. -/
theorem setX_withFl (s : State) (fl : BitVec 3) (i v : Byte) :
    ({ s with fl := fl } : State).setX i v = { s.setX i v with fl := fl } := by
  unfold State.setX; split <;> rfl

/-- Two results with the same value or the same fault, in states that differ in FL at most. -/
inductive AgreeButFl {α : Type} : EStateM.Result FaultCause State α → EStateM.Result FaultCause State α → Prop
  | ok (v : α) (s : State) (fl : BitVec 3) : AgreeButFl (.ok v s) (.ok v { s with fl := fl })
  | error (f : FaultCause) (s : State) (fl : BitVec 3) : AgreeButFl (.error f s) (.error f { s with fl := fl })

/-- Changing FL before the statements changes nothing but FL after them. -/
def IgnoresFl {α : Type} (act : Act α) : Prop := ∀ (s : State) (fl : BitVec 3), AgreeButFl (act s) (act { s with fl := fl })

namespace IgnoresFl

/-! #### Sequencing and the primitives -/

theorem pure {α : Type} (v : α) : IgnoresFl (Pure.pure v : Act α) := fun s fl => .ok v s fl

theorem raise {α : Type} (f : FaultCause) : IgnoresFl (Machine.raise f : Act α) := fun s fl => .error f s fl

theorem bind {α β : Type} {act : Act α} {k : α → Act β} (h : IgnoresFl act) (hk : ∀ v, IgnoresFl (k v)) :
    IgnoresFl (act >>= k) := by
  intro s fl
  have hact := h s fl
  rw [bind_apply, bind_apply]
  generalize act s = r, act { s with fl := fl } = r' at hact
  cases hact with
  | ok v s' fl' => exact hk v s' fl'
  | error f s' fl' => exact .error f s' fl'

theorem ifThenElse {α : Type} {c : Prop} [Decidable c] {act act' : Act α} (h : IgnoresFl act) (h' : IgnoresFl act') :
    IgnoresFl (if c then act else act') := by
  split
  · exact h
  · exact h'

theorem readReg (i : Byte) : IgnoresFl (Machine.readReg i) := by
  intro s fl
  cases h : s.readFault i with
  | none =>
    rw [readReg_of_none h, readReg_of_none (s := { s with fl := fl }) h]
    exact .ok (s.x i) s fl
  | some f =>
    rw [readReg_of_some h, readReg_of_some (s := { s with fl := fl }) h]
    exact .error f s fl

theorem writeReg (i v : Byte) : IgnoresFl (Machine.writeReg i v) := by
  intro s fl
  by_cases h : i.toNat < 8
  · rw [writeReg_of_lt h, writeReg_of_lt h, setX_withFl s fl]
    exact .ok () (s.setX i v) fl
  · rw [writeReg_of_le (Nat.not_lt.mp h), writeReg_of_le (Nat.not_lt.mp h)]
    exact .error _ s fl

theorem memRead (addr : Nat) : IgnoresFl (Machine.memRead addr) := by
  intro s fl
  by_cases h : addr < memSize
  · rw [memRead_of_lt h, memRead_of_lt h]
    exact .ok _ s fl
  · rw [memRead_of_le (Nat.not_lt.mp h), memRead_of_le (Nat.not_lt.mp h)]
    exact .error _ s fl

theorem memWrite (addr : Nat) (v : Byte) : IgnoresFl (Machine.memWrite addr v) := by
  intro s fl
  by_cases h : addr < memSize
  · rw [memWrite_of_lt h, memWrite_of_lt h]
    exact .ok () { s with mem := s.mem.write addr v } fl
  · rw [memWrite_of_le (Nat.not_lt.mp h), memWrite_of_le (Nat.not_lt.mp h)]
    exact .error _ s fl

theorem readPc : IgnoresFl Machine.readPc := fun s fl => .ok s.pc s fl

theorem setPc (t : Byte) : IgnoresFl (Machine.setPc t) := fun s fl => .ok () { s with pc := t } fl

theorem advance (n : Byte) : IgnoresFl (Machine.advance n) := fun s fl => .ok () { s with pc := s.pc + n } fl

theorem setFl (v : BitVec 3) : IgnoresFl (Machine.setFl v) := fun s _ => .ok () { s with fl := v } v

theorem setCtrl (c : Ctrl) : IgnoresFl (Machine.setCtrl c) := fun s fl => .ok () { s with ctrl := c } fl

theorem emit (v : Byte) : IgnoresFl (Machine.emit v) := fun s fl => .ok () { s with out := s.out ++ [v] } fl

/-! #### The operand forms -/

theorem readPair (a b : Byte) : IgnoresFl (Machine.readPair a b) :=
  bind (readReg a) fun _ => bind (readReg b) fun _ => pure _

theorem moveSp (k : Byte) : IgnoresFl (Machine.moveSp k) := bind (readReg spIndex) fun _ => writeReg spIndex _

theorem storeAtSp (v : Byte) : IgnoresFl (Machine.storeAtSp v) := bind (readReg spIndex) fun _ => memWrite _ v

theorem loadAtSp : IgnoresFl Machine.loadAtSp := bind (readReg spIndex) fun _ => memRead _

theorem jumpToReg (a : Byte) : IgnoresFl (Machine.jumpToReg a) := bind (readReg a) setPc

/-! #### The ALU -/

theorem aluBinary (g : Byte → Byte → Byte) (dest src : Byte) : IgnoresFl (Machine.aluBinary g dest src) :=
  bind (readPair dest src) fun _ => writeReg dest _

theorem aluTrueMod (dest src : Byte) : IgnoresFl (Machine.aluTrueMod dest src) :=
  bind (readPair dest src) fun _ => ifThenElse (raise _) (writeReg dest _)

theorem aluMod (dest src : Byte) : IgnoresFl (Machine.aluMod dest src) := by
  intro s fl
  unfold Machine.aluMod
  cases s.params.modSemantics with
  | noop => exact .ok () s fl
  | modulo => exact aluTrueMod dest src s fl

/-- CMP writes FL without reading it. -/
theorem aluCmp (dest src : Byte) : IgnoresFl (Machine.aluCmp dest src) :=
  bind (readPair dest src) fun _ => setFl _

theorem aluNot (dest src : Byte) : IgnoresFl (Machine.aluNot dest src) :=
  bind (readReg dest) fun _ => writeReg dest _

theorem alu (op dest src : Byte) : IgnoresFl (Machine.alu op dest src) :=
  ifThenElse (aluBinary _ dest src) <| ifThenElse (aluBinary _ dest src) <| ifThenElse (aluBinary _ dest src) <|
  ifThenElse (aluMod dest src) <| ifThenElse (aluCmp dest src) <| ifThenElse (aluBinary _ dest src) <|
  ifThenElse (aluBinary _ dest src) <| ifThenElse (aluBinary _ dest src) <| ifThenElse (aluNot dest src) <|
  ifThenElse (aluBinary _ dest src) <| ifThenElse (aluBinary _ dest src) (raise _)

theorem aluInstr (m : Mnemonic) (a b : Byte) : IgnoresFl (Machine.aluInstr m a b) :=
  bind (alu _ a b) fun _ => advance 3

/-! #### The instructions -/

theorem statementsOf {i : Instr} (hjeq : i.mnemonic ≠ .jeq) (hjne : i.mnemonic ≠ .jne) :
    IgnoresFl (Machine.statementsOf i) := by
  cases i with
  | hlt => exact bind (setCtrl _) fun _ => advance 1
  | ret => exact bind loadAtSp fun t => bind (moveSp 1) fun _ => setPc t
  | push a => exact bind (moveSp (-1)) fun _ => bind (readReg a) fun v => bind (storeAtSp v) fun _ => advance 2
  | pop a => exact bind loadAtSp fun v => bind (writeReg a v) fun _ => bind (moveSp 1) fun _ => advance 2
  | prn a => exact bind (readReg a) fun v => bind (emit v) fun _ => advance 2
  | call a => exact bind (moveSp (-1)) fun _ => bind readPc fun p => bind (storeAtSp (p + 2)) fun _ => jumpToReg a
  | jmp a => exact jumpToReg a
  | jeq a => exact absurd rfl hjeq
  | jne a => exact absurd rfl hjne
  | not a => exact bind (alu _ a a) fun _ => advance 2
  | ldi a imm => exact bind (writeReg a _) fun _ => advance 3
  | add a b | sub a b | mul a b | mod a b | cmp a b | and a b | or a b | xor a b | shl a b | shr a b =>
    exact aluInstr _ a b

/-- What an instruction answers from two states that differ in FL alone differs in FL at most, its fault entry included. -/
theorem runInstr_next {act : Act Unit} {s t u : State} {fl : BitVec 3} (hact : IgnoresFl act)
    (ht : runInstr act s = .next t) (hu : runInstr act { s with fl := fl } = .next u) : { u with fl := t.fl } = t := by
  have hagree := hact s fl
  unfold runInstr at ht hu
  generalize act s = r, act { s with fl := fl } = r' at hagree ht hu
  cases hagree with
  | ok v s' fl' => cases ht; cases hu; rfl
  | error f s' fl' => cases ht; cases hu; rfl

end IgnoresFl

/-! ### The rule -/

/-- Settles O18: FL changes only where `step_fl` allows it, and the statements of every instruction but JEQ and JNE ignore FL. -/
theorem onlyCmpWritesFlagsOnlyJeqJneReadThem : Obligations.OnlyCmpWritesFlagsOnlyJeqJneReadThem := by
  refine ⟨fun s t h hne => (step_fl h).resolve_left hne, fun i s t u fl hjeq hjne ht hu => ?_⟩
  rw [exec_eq_runInstr] at ht hu
  exact (IgnoresFl.statementsOf hjeq hjne).runInstr_next ht hu

end Sys2Proof.Machine
end

section
/-! SUPPORT. The memory primitives (20_memory.md R62, R63). -/

namespace Sys2Proof.Machine

/-- Settles O58: the bounds check decides, and the write that passes it is `Memory.write`. -/
theorem memoryAccess : Obligations.MemoryAccess := by
  intro s addr v hwf
  constructor
  · intro (hlt : addr < memSize)
    exact ⟨memRead_of_lt hlt, s.mem.write addr v, memWrite_of_lt hlt, Memory.wf_write v hwf hlt,
      Memory.read_write_same v hwf, fun _ hne => Memory.read_write_other s.mem v hne⟩
  · intro (hle : memSize ≤ addr)
    exact ⟨memRead_of_le hle, memWrite_of_le hle⟩

end Sys2Proof.Machine
end

section
/-! SUPPORT. What decoding selects (30_encoding.md R87): under any injective opcode map, the one mnemonic of the active set
with the opcode byte, if there is one. -/

namespace Sys2Proof

/-! ### The table's mnemonics and their opcodes -/

/-- The table lists every mnemonic, so a search through it misses none. -/
theorem Mnemonic.mem_all (m : Mnemonic) : m ∈ Mnemonic.all := by cases m <;> decide

/-- No two rows of R85 share an opcode byte. -/
theorem opcodeMap_injective : Function.Injective opcodeMap := by
  have hnodup : (Mnemonic.all.map opcodeMap).Nodup := by decide
  exact fun m m' h => List.inj_on_of_nodup_map hnodup m.mem_all m'.mem_all h

/-! ### Selection under any opcode map -/

section
variable {map : OpcodeMap} {set : AluDecodeSet} {op : Byte} {m : Mnemonic}

theorem selectWith_sound (h : selectWith map set op = some m) : decodedUnder set m = true ∧ map m = op := by
  simpa using List.find?_some h

theorem selectWith_eq_none_iff :
    selectWith map set op = none ↔ ∀ m : Mnemonic, decodedUnder set m = true → map m ≠ op := by
  simp [selectWith, Mnemonic.mem_all]

/-- The search answers the mnemonic it should: some mnemonic is found, and injectivity leaves only one it can be. -/
theorem selectWith_eq_some (hmap : Function.Injective map) (hset : decodedUnder set m = true) :
    selectWith map set (map m) = some m := by
  cases h : selectWith map set (map m) with
  | none => exact absurd rfl (selectWith_eq_none_iff.mp h m hset)
  | some m' => rw [hmap (selectWith_sound h).2]

/-! ### Decoding under any opcode map -/

theorem decodeWith_opcode (hmap : Function.Injective map) (hset : decodedUnder set m = true) (a b : Byte) :
    decodeWith map set (map m) a b = .instr (m.withOperands a b) := by
  rw [decodeWith, selectWith_eq_some hmap hset]

theorem decodeWith_unknown (h : ∀ m : Mnemonic, decodedUnder set m = true → map m ≠ op) (a b : Byte) :
    decodeWith map set op a b = .unknown op := by
  rw [decodeWith, selectWith_eq_none_iff.mpr h]

end

/-! ### The rule -/

/-- Settles O6: decoding under any injective map, at the opcode map of R85. -/
theorem decodeSelectsByOpcodeAlone : Obligations.DecodeSelectsByOpcodeAlone := by
  intro set op a b
  constructor
  · rintro m hset rfl
    exact decodeWith_opcode opcodeMap_injective hset a b
  · intro hnone
    exact decodeWith_unknown hnone a b

end Sys2Proof
end

section
/-! SUPPORT. What a step does, by STATE and by the fetched window (40_control_unit.md R100 to R104), and the rules of the fetch
and of an unknown opcode. -/

namespace Sys2Proof.Machine

section
variable {s : State}

/-! ### One equation per row of the transition table -/

theorem step_of_rst (hr : s.input = .rst) : step s = .next (assertReset s.afterInput) := by simp [step, hr]

theorem step_of_idle (hr : s.input ≠ .rst) (hc : s.ctrl = .idle) :
    step s = .next (idleStep s.input s.afterInput) := by
  simp [step, hr, hc]

theorem step_of_running (hr : s.input ≠ .rst) (hc : s.ctrl = .running) : step s = stepRunning s.afterInput := by
  simp [step, hr, hc]

theorem step_of_stopped (hr : s.input ≠ .rst) (hc : s.ctrl = .halted ∨ s.ctrl = .faulted) :
    step s = .next s.afterInput := by
  rcases hc with hc | hc <;> simp [step, hr, hc]

/-! ### A step in RUNNING, by the window at the program counter -/

theorem decodeAndExec_of_instr {op a b : Byte} {i : Instr} (h : decode s.params.aluDecodeSet op a b = .instr i) :
    decodeAndExec op a b s = exec i s := by
  rw [decodeAndExec, h]

theorem decodeAndExec_of_unknown {op a b o : Byte} (h : decode s.params.aluDecodeSet op a b = .unknown o) :
    decodeAndExec op a b s = .next (takeFault (.unknownOpcode o) s.ir s) := by
  rw [decodeAndExec, h]

theorem step_of_executes {i : Instr} (h : s.executes i) : step s = exec i s.fetched := by
  obtain ⟨hf, hd⟩ := h
  exact (step_of_fetches hf).trans (decodeAndExec_of_instr hd)

theorem step_of_unknown {op : Byte} (hf : s.fetches) (hd : s.decoded = .unknown op) :
    step s = .next (takeFault (.unknownOpcode op) (s.fetchByte 0) s.fetched) :=
  (step_of_fetches hf).trans (decodeAndExec_of_unknown hd)

/-- A window that leaves memory: the fault is taken in a state that differs from `s` in IR, OPA and the host's acts. -/
theorem step_of_window_outside (hr : s.input ≠ .rst) (hc : s.ctrl = .running) (h : 253 ≤ s.pc.toNat) :
    ∃ ir opa, step s = .next (takeFault (.memOutOfRange 255) (if s.pc.toNat = 255 then 0 else s.fetchByte 0)
      { s.afterInput with ir := ir, opa := opa }) := by
  have hout : memSize ≤ s.afterInput.pc.toNat + 2 := by simp only [afterInput_pc, memSize]; omega
  obtain ⟨ir, opa, op, hs, rfl⟩ := stepRunning_of_le hout
  refine ⟨ir, opa, ?_⟩
  have hop : (if s.pc.toNat < memSize then s.fetchByte 0 else 0) = if s.pc.toNat = 255 then 0 else s.fetchByte 0 := by
    have hlt := s.pc.isLt
    by_cases h255 : s.pc.toNat = 255
    · rw [if_neg (by simp only [memSize]; omega), if_pos h255]
    · rw [if_pos (by simp only [memSize]; omega), if_neg h255]
  rw [step_of_running hr hc, hs, ← hop]
  rfl

/-- What decoding calls unknown is the opcode byte itself (R87). -/
theorem decode_unknown {set : AluDecodeSet} {op a b o : Byte} (h : decode set op a b = .unknown o) : o = op := by
  unfold decode decodeWith at h
  split at h
  · cases h
  · cases h; rfl

end

/-! ### The rules -/

/-- Settles O11: up to 252 the window is decoded (`step_of_fetches`), from 253 on the fetch raises (`step_of_window_outside`). -/
theorem fetchReadsThreeBytesOrFaults : Obligations.FetchReadsThreeBytesOrFaults := by
  intro s hr hc
  constructor
  · intro hpc
    exact step_of_fetches ⟨hr, hc, hpc⟩
  · intro hpc
    obtain ⟨ir, opa, hs⟩ := step_of_window_outside hr hc hpc
    exact ⟨_, hs, rfl, rfl, rfl, rfl, rfl, rfl, rfl, rfl, rfl, rfl, rfl⟩

/-- Settles O12: where the window lies in memory decode raises in `s.fetched`, elsewhere the fetch has raised before it. -/
theorem unknownOpcodeFaultsWithoutEffect : Obligations.UnknownOpcodeFaultsWithoutEffect := by
  intro s op hr hc hd
  by_cases hpc : s.pc.toNat ≤ 252
  · exact ⟨_, step_of_unknown ⟨hr, hc, hpc⟩ hd, rfl, rfl, rfl, rfl, rfl, rfl, rfl,
      fun _ => ⟨rfl, rfl, decode_unknown hd⟩, fun h => by omega⟩
  · obtain ⟨ir, opa, hs⟩ := step_of_window_outside hr hc (by omega)
    exact ⟨_, hs, rfl, rfl, rfl, rfl, rfl, rfl, rfl, fun h => by omega, fun _ => rfl⟩

end Sys2Proof.Machine
end

section
/-! SUPPORT. What a step does to STATE (40_control_unit.md R100). -/

namespace Sys2Proof.Machine

/-! ### IDLE -/

theorem idleStep_start_ctrl (s : State) : (idleStep .start s).ctrl = if s.loadErr then s.ctrl else .running := by
  simp only [idleStep, startBlock]; split <;> rfl

/-- No act of the host but reset and start touches STATE. -/
theorem idleStep_ctrl_of_ne {e : HostInput} (s : State) (hr : e ≠ .rst) (hs : e ≠ .start) :
    (idleStep e s).ctrl = s.ctrl := by
  cases e with
  | quiet => rfl
  | rst => exact absurd rfl hr
  | load addr data => simp only [idleStep, loadByte]; split <;> rfl
  | start => exact absurd rfl hs

theorem ctrl_of_idle {s t : State} (hr : s.input ≠ .rst) (hc : s.ctrl = .idle) (h : step s = .next t) :
    t.ctrl = if s.input = .start ∧ s.loadErr = false then .running else .idle := by
  rw [step_of_idle hr hc] at h
  cases h
  by_cases hs : s.input = .start
  · rw [hs, idleStep_start_ctrl]
    cases hl : s.loadErr <;> simp [hl, hc]
  · rw [idleStep_ctrl_of_ne _ hr hs]
    simp [hs, hc]

/-! ### RUNNING -/

/-- Entry into FAULTED with a cause, at the program counter, which stays (R242). -/
abbrev entersFault (s t : State) : Prop :=
  t.ctrl = .faulted ∧ t.faultCause ≠ 0 ∧ t.faultPc = s.pc ∧ t.pc = s.pc

/-- No cause has code 0, the value FAULT_CAUSE has outside FAULTED (R41, R241). -/
theorem FaultCause.code_ne_zero (f : FaultCause) : f.code ≠ 0 := by cases f <;> simp [FaultCause.code]

theorem entersFault_takeFault {s u : State} (f : FaultCause) (op : Byte) (h : u.pc = s.pc) :
    entersFault s (takeFault f op u) := ⟨rfl, f.code_ne_zero, h, h⟩

theorem exec_hlt (s : State) : exec .hlt s = .next { s with ctrl := .halted, pc := s.pc + 1 } := rfl

/-- HLT alone halts; any other instruction enters FAULTED or keeps STATE and the fault registers. -/
theorem exec_control {i : Instr} {s t : State} (h : exec i s = .next t) (hi : i ≠ .hlt) :
    (t.ctrl = s.ctrl ∧ faultRegsKept s t) ∨ entersFault s t := by
  rcases exec_cases h with ⟨f, u, rfl, _, hu⟩ | hcompl
  · obtain ⟨_, _, _, hpc, _⟩ := faultsIn_control hu
    exact .inr (entersFault_takeFault f s.ir hpc)
  · obtain ⟨_, hregs, hctrl⟩ := completes_control hcompl
    exact .inl ⟨by rw [hctrl, if_neg hi], hregs⟩

theorem running_control {s t : State} (hr : s.input ≠ .rst) (hc : s.ctrl = .running) (h : step s = .next t)
    (hhlt : ¬ s.executes .hlt) : (t.ctrl = .running ∧ faultRegsKept s t) ∨ entersFault s t := by
  rcases running_cases hr hc h with ⟨i, hi, he⟩ | ⟨f, op, u, _, _, rfl, _, hu⟩
  · rcases exec_control he (by rintro rfl; exact hhlt hi) with ⟨hctrl, hregs⟩ | hfault
    · exact .inl ⟨hctrl.trans hc, hregs⟩
    · exact .inr hfault
  · exact .inr (entersFault_takeFault f op (by rw [hu]))

/-! ### HALTED and FAULTED -/

theorem ctrl_of_stopped {s t : State} (hr : s.input ≠ .rst) (hc : s.ctrl = .halted ∨ s.ctrl = .faulted)
    (h : step s = .next t) : t.ctrl = s.ctrl := by
  rw [step_of_stopped hr hc] at h
  cases h; rfl

/-! ### The rule -/

/-- Settles O15, row by row of the table. -/
theorem stateMachineTransitions : Obligations.StateMachineTransitions := by
  intro s t h
  refine ⟨fun hr => ?_, fun hr => ⟨?_, ?_, ?_, ?_, ?_, ?_, ?_⟩⟩
  · rw [step_of_rst hr] at h
    cases h; rfl
  · intro hc hs hl
    rw [ctrl_of_idle hr hc h, if_pos ⟨hs, hl⟩]
  · intro hc hs hl
    simp [ctrl_of_idle hr hc h, hl]
  · intro hc hs
    simp [ctrl_of_idle hr hc h, hs]
  · intro hhlt
    rw [step_of_executes hhlt, exec_hlt] at h
    cases h; rfl
  · intro hc hhlt
    exact running_control hr hc h hhlt
  · intro hc
    exact (ctrl_of_stopped hr (.inl hc) h).trans hc
  · intro hc
    exact (ctrl_of_stopped hr (.inr hc) h).trans hc

end Sys2Proof.Machine
end

section
/-! SUPPORT. Who writes OUT, and what the output port shows (40_control_unit.md R114). -/

namespace Sys2Proof.Machine

/-! ### The output port -/

theorem outPort_of_append {s t : State} {v : Byte} (h : t.out = s.out ++ [v]) : outPort s t = some v := by
  simp [outPort, h]

theorem outPort_of_eq {s t : State} (h : t.out = s.out) : outPort s t = none := by
  simp [outPort, h]

/-! ### Who writes OUT -/

/-- In IDLE no act of the host but reset writes anything besides memory, `load_err` and STATE (R113). -/
theorem idleStep_writes {e : HostInput} (s : State) (he : e ≠ .rst) :
    ∃ mem loadErr ctrl, idleStep e s = { s with mem := mem, loadErr := loadErr, ctrl := ctrl } := by
  cases e with
  | quiet => exact ⟨_, _, _, rfl⟩
  | rst => exact absurd rfl he
  | load addr data => simp only [idleStep, loadByte]; split <;> exact ⟨_, _, _, rfl⟩
  | start => simp only [idleStep, startBlock]; split <;> exact ⟨_, _, _, rfl⟩

/-- An instruction leaves OUT as it was, or it is a PRN whose register can be read. -/
theorem exec_out {i : Instr} {s t : State} (h : exec i s = .next t) :
    t.out = s.out ∨ ∃ a, i = .prn a ∧ s.readFault a = none := by
  rcases exec_cases h with ⟨f, u, rfl, _, hu⟩ | hc
  · obtain ⟨_, _, _, _, _, hout⟩ := faultsIn_control hu
    exact .inl hout
  · rcases completes_out hc with hout | ⟨a, hi, ha, _⟩
    · exact .inl hout
    · exact .inr ⟨a, hi, ha⟩

/-- A step without reset leaves OUT as it was, or it executes a PRN whose register can be read. -/
theorem step_out {s t : State} (hr : s.input ≠ .rst) (h : step s = .next t) :
    t.out = s.out ∨ ∃ a, s.executes (.prn a) ∧ s.readFault a = none := by
  rcases step_cases s with ⟨hrst, _⟩ | ⟨_, _, hs⟩ | ⟨_, hc, _⟩ | ⟨_, _, hs⟩
  · exact absurd hrst hr
  · rw [hs] at h; cases h
    obtain ⟨_, _, _, he⟩ := idleStep_writes s.afterInput hr
    exact .inl (by rw [he, afterInput_out])
  · rcases running_cases hr hc h with ⟨i, hi, he⟩ | ⟨f, op, u, _, _, rfl, _, hu⟩
    · rcases exec_out he with hout | ⟨a, rfl, ha⟩
      · exact .inl hout
      · exact .inr ⟨a, hi, ha⟩
    · exact .inl (by rw [takeFault_out, hu])
  · rw [hs] at h; cases h
    exact .inl rfl

theorem exec_prn_of_none {s : State} {a : Byte} (ha : s.readFault a = none) :
    exec (.prn a) s = .next { s with out := s.out ++ [s.x a], pc := s.pc + 2 } := by
  refine exec_of_ok ?_
  show prnInstr a s = _
  rw [prnInstr, bind_ok (readReg_of_none ha), bind_ok (emit_apply _ _)]
  rfl

/-! ### The rule -/

/-- Settles O20: a readable PRN emits its register, and `step_out` leaves no other step that writes OUT. -/
theorem onlyPrnProducesOutput : Obligations.OnlyPrnProducesOutput := by
  intro s t hr h
  constructor
  · intro a hprn ha
    rw [step_of_executes hprn, exec_prn_of_none (s := s.fetched) ha] at h
    cases h
    exact ⟨rfl, outPort_of_append rfl⟩
  · intro hno
    rcases step_out hr h with hout | ⟨a, hprn, ha⟩
    · exact ⟨hout, outPort_of_eq hout⟩
    · exact absurd ha (hno a hprn)

end Sys2Proof.Machine
end

section
/-! SUPPORT. How each instruction writes PC (40_control_unit.md R107). -/

namespace Sys2Proof.Machine

theorem mnemonic_length_le (m : Mnemonic) : m.length ≤ 3 := by cases m <;> decide

theorem binaryCompletes_pc {g : Byte → Byte → Byte} {a b : Byte} {s t : State} (h : BinaryCompletes g a b s t) :
    t.pc = s.pc + 3 := by
  obtain ⟨_, _, rfl⟩ := h; rfl

/-- A completed instruction that is no control transfer advances PC by its length. -/
theorem completes_pc {i : Instr} {s t : State} (h : Completes i s t)
    (hi : i.mnemonic ∉ [Mnemonic.call, .ret, .jmp, .jeq, .jne]) : t.pc = s.pc + BitVec.ofNat 8 i.mnemonic.length := by
  cases i with
  | call a | ret | jmp a | jeq a | jne a => exact absurd (by simp [Instr.mnemonic]) hi
  | hlt | cmp a b => cases h; rfl
  | prn a | not a | ldi a imm => obtain ⟨_, rfl⟩ := h; rfl
  | push a => obtain ⟨_, _, rfl⟩ := h; rfl
  | pop a => obtain ⟨_, _, _, u, _, rfl⟩ := h; rfl
  | mod a b =>
    rcases h with ⟨_, rfl⟩ | ⟨_, hb⟩
    · rfl
    · exact binaryCompletes_pc hb
  | add a b | sub a b | mul a b | and a b | or a b | xor a b => exact binaryCompletes_pc h
  | shl a b => exact binaryCompletes_pc (g := fun d s => d <<< s.toNat) h
  | shr a b => exact binaryCompletes_pc (g := fun d s => d >>> s.toNat) h

/-- An instruction executed in RUNNING leaves the block in FAULTED with PC as before, or it completes and does not. -/
theorem exec_faulted_or_completes {i : Instr} {s t : State} (hc : s.ctrl = .running) (h : exec i s = .next t) :
    (t.ctrl = .faulted ∧ t.pc = s.pc) ∨ (t.ctrl ≠ .faulted ∧ Completes i s t) := by
  rcases exec_cases h with ⟨f, u, rfl, _, hu⟩ | hcompl
  · obtain ⟨_, _, _, hpc, _⟩ := faultsIn_control hu
    exact .inl ⟨rfl, hpc⟩
  · obtain ⟨_, _, hctrl⟩ := completes_control hcompl
    refine .inr ⟨?_, hcompl⟩
    rw [hctrl, hc]
    split <;> decide

/-! ### The rule -/

/-- Settles O21: a fault leaves PC, and `Completes` names the PC of each completed instruction. -/
theorem programCounterUpdate : Obligations.ProgramCounterUpdate := by
  refine ⟨fun m => by cases m <;> decide, fun s t i hi h => ?_⟩
  obtain ⟨_, hc, hpc⟩ := hi.1
  have hlen := mnemonic_length_le i.mnemonic
  rw [step_of_executes hi] at h
  refine ⟨by omega, ?_⟩
  rcases exec_faulted_or_completes (s := s.fetched) hc h with ⟨hf, hkept⟩ | ⟨hnf, hcompl⟩
  · exact ⟨fun _ => hkept, fun hnf => absurd hf hnf⟩
  · refine ⟨fun hf => absurd hf hnf, fun _ => ⟨?_, ?_, ?_, ?_, ?_, ?_⟩⟩
    · intro hm
      rw [completes_pc hcompl hm, fetched_pc, BitVec.toNat_add, BitVec.toNat_ofNat]
      omega
    · rintro a rfl; obtain ⟨_, _, rfl⟩ := hcompl; rfl
    · rintro rfl; obtain ⟨_, _, rfl⟩ := hcompl; rfl
    · rintro a rfl; cases hcompl; rfl
    · rintro a rfl; cases hcompl; rfl
    · rintro a rfl; cases hcompl; rfl

end Sys2Proof.Machine
end

section
/-! SUPPORT. The ALU on each of its operations, and the instructions that reach it (41_alu.md R130 to R142, R150 to R167). -/

namespace Sys2Proof.Machine

/-! ### From the ALU's answer to the instruction's -/

section
variable {i : Instr} {m : Mnemonic} {a b : Byte} {s u : State}

/-- A two-operand ALU instruction whose operation completes advances PC by 3. -/
theorem exec_of_alu_ok (hi : statementsOf i = aluInstr m a b) (h : alu (opcodeMap m) a b s = .ok () u) :
    exec i s = .next { u with pc := u.pc + 3 } :=
  exec_of_ok ((congrFun hi s).trans (aluInstr_of_ok h))

/-- A two-operand ALU instruction takes the fault its operation raises. -/
theorem exec_of_alu_error {f : FaultCause} (hi : statementsOf i = aluInstr m a b)
    (h : alu (opcodeMap m) a b s = .error f u) : exec i s = .next (takeFault f u.ir u) :=
  exec_of_error ((congrFun hi s).trans (aluInstr_of_error h))

/-- An operation that writes one register with `v`: the ALU's answer, and the instruction's. -/
theorem exec_of_alu_setX {v : Byte} (hi : statementsOf i = aluInstr m a b)
    (h : alu (opcodeMap m) a b s = .ok () (s.setX a v)) : exec i s = .next { s.setX a v with pc := s.pc + 3 } := by
  rw [exec_of_alu_ok hi h, setX_pc]

/-- What every register-writing operation of R131 to R141 leaves when both operands can be read. -/
theorem alu_exec_of_binary {g : Byte → Byte → Byte} (hi : statementsOf i = aluInstr m a b)
    (hm : alu (opcodeMap m) a b = aluBinary g a b) (ha : s.readFault a = none) (hb : s.readFault b = none) :
    alu (opcodeMap m) a b s = .ok () (s.setX a (g (s.x a) (s.x b))) ∧
      exec i s = .next { s.setX a (g (s.x a) (s.x b)) with pc := s.pc + 3 } := by
  have halu : alu (opcodeMap m) a b s = .ok () (s.setX a (g (s.x a) (s.x b))) := by
    rw [hm, aluBinary_of_none g ha hb]
  exact ⟨halu, exec_of_alu_setX hi halu⟩

/-- NOT is two bytes long (R165). -/
theorem exec_not_of_alu_ok (h : alu (opcodeMap .not) a a s = .ok () u) :
    exec (.not a) s = .next { u with pc := u.pc + 2 } := by
  refine exec_of_ok ?_
  show notInstr a s = _
  rw [notInstr, bind_ok h, advance_apply]

theorem exec_not_of_alu_error {f : FaultCause} (h : alu (opcodeMap .not) a a s = .error f u) :
    exec (.not a) s = .next (takeFault f u.ir u) := by
  refine exec_of_error ?_
  show notInstr a s = _
  rw [notInstr, bind_error h]

end

/-! ### The operations the ALU has, and any other (R130, R142) -/

/-- The eleven operations of the ALU (R130). -/
def aluOperations : List Mnemonic := [.add, .sub, .mul, .mod, .cmp, .and, .or, .xor, .not, .shl, .shr]

theorem alu_of_unsupported {op : Byte} (h : ∀ m ∈ aluOperations, opcodeMap m ≠ op) (a b : Byte) :
    alu op a b = raise (.unsupportedAluOp op) := by
  have hne : ∀ m ∈ aluOperations, op ≠ opcodeMap m := fun m hm => (h m hm).symm
  simp only [aluOperations, List.forall_mem_cons] at hne
  obtain ⟨hadd, hsub, hmul, hmod, hcmp, hand, hor, hxor, hnot, hshl, hshr, _⟩ := hne
  rw [alu, if_neg hadd, if_neg hsub, if_neg hmul, if_neg hmod, if_neg hcmp, if_neg hand, if_neg hor, if_neg hxor,
    if_neg hnot, if_neg hshl, if_neg hshr]

theorem mnemonic_withOperands (m : Mnemonic) (a b : Byte) : (m.withOperands a b).mnemonic = m := by cases m <;> rfl

/-- Every operation but NOT is reached by the two-operand instruction of its name. -/
theorem statementsOf_withOperands {m : Mnemonic} (hm : m ∈ aluOperations) (hnot : m ≠ .not) (a b : Byte) :
    statementsOf (m.withOperands a b) = aluInstr m a b := by
  cases m with
  | not => exact absurd rfl hnot
  | hlt | ret | push | pop | prn | call | jmp | jeq | jne | ldi => exact absurd hm (by decide)
  | add | sub | mul | mod | cmp | and | or | xor | shl | shr => rfl

/-! ### Who raises UnsupportedAluOp -/

theorem InstrFault.code_ne_two {s : State} {f : FaultCause} (h : InstrFault s f) : f.code ≠ 2 := by
  cases f with
  | unsupportedAluOp op => exact absurd h id
  | unknownOpcode | memOutOfRange | regOutOfRange | unwrittenRegisterRead | modByZero => simp [FaultCause.code]

theorem completes_not_faulted {i : Instr} {s t : State} (hc : s.ctrl = .running) (h : Completes i s t) :
    t.ctrl ≠ .faulted := by
  obtain ⟨_, _, hctrl⟩ := completes_control h
  rw [hctrl, hc]
  split <;> decide

/-- Settles O26: the ALU falls through its eleven tests, and `InstrFault` has no UnsupportedAluOp. -/
theorem unsupportedAluOperation : Obligations.UnsupportedAluOperation := by
  refine ⟨fun op a b s h => congrFun (alu_of_unsupported h a b) s, fun i s t hc h hf => ?_⟩
  rcases exec_cases h with ⟨f, u, rfl, hfault, _⟩ | hcompl
  · exact hfault.code_ne_two
  · exact absurd hf (completes_not_faulted hc hcompl)

end Sys2Proof.Machine
end

section
/-! SUPPORT. CMP and FL (41_alu.md R135). -/

namespace Sys2Proof.Machine

section
variable {d s : Byte}

theorem cmpFlags_of_eq (h : d.toNat = s.toNat) : cmpFlags d s = 0b001 := by
  rw [cmpFlags, if_pos (BitVec.eq_of_toNat_eq h), flEqual]

theorem cmpFlags_of_lt (h : d.toNat < s.toNat) : cmpFlags d s = 0b100 := by
  rw [cmpFlags, if_neg (by rintro rfl; omega), if_pos h, flLess]

theorem cmpFlags_of_gt (h : s.toNat < d.toNat) : cmpFlags d s = 0b010 := by
  rw [cmpFlags, if_neg (by rintro rfl; omega), if_neg (by omega), flGreater]

end

/-- An operation but CMP that completes leaves FL: so does the instruction that reaches it (`exec_fl`). -/
theorem alu_fl {op a b : Byte} {s t : State} (hop : op ≠ opcodeMap .cmp) (h : alu op a b s = .ok () t) :
    t.fl = s.fl := by
  by_cases hops : ∀ m ∈ aluOperations, opcodeMap m ≠ op
  · rw [alu_of_unsupported hops, raise_apply] at h
    cases h
  · push Not at hops
    obtain ⟨m, hm, rfl⟩ := hops
    by_cases hnot : m = .not
    · subst hnot
      exact (exec_fl (exec_not_of_alu_ok h)).resolve_right (by rintro ⟨_, _, hi⟩; cases hi)
    · have hexec := exec_of_alu_ok (statementsOf_withOperands hm hnot a b) h
      refine (exec_fl hexec).resolve_right ?_
      rintro ⟨a', b', hi⟩
      have hcmp : m = .cmp := by rw [← mnemonic_withOperands m a b, hi, Instr.mnemonic]
      exact hop (congrArg opcodeMap hcmp)

/-- Settles O30: `cmpFlags` in each order of the operands, and `alu_fl`. -/
theorem cmpResult : Obligations.CmpResult := by
  refine ⟨fun a b s ha hb => ?_, fun op a b s t => alu_fl⟩
  have halu : alu (opcodeMap .cmp) a b s = .ok () { s with fl := cmpFlags (s.x a) (s.x b) } := aluCmp_of_none ha hb
  exact ⟨_, cmpFlags_of_eq, cmpFlags_of_lt, cmpFlags_of_gt, halu, exec_of_alu_ok (i := .cmp a b) rfl halu⟩

end Sys2Proof.Machine
end

section
/-! SUPPORT. The register-writing operations (41_alu.md R131 to R133, R136 to R141). -/

namespace Sys2Proof.Machine

/-! ### The arithmetic -/

theorem toNat_sub_cases (d s : Byte) :
    (d - s).toNat = if s.toNat ≤ d.toNat then d.toNat - s.toNat else d.toNat + 256 - s.toNat := by
  split <;> bv_omega

theorem toNat_shl (d : Byte) (k : Nat) : (d <<< k).toNat = d.toNat * 2 ^ k % 256 := by
  rw [BitVec.toNat_shiftLeft, Nat.shiftLeft_eq]

theorem toNat_shr (d : Byte) (k : Nat) : (d >>> k).toNat = d.toNat / 2 ^ k := by
  rw [BitVec.toNat_ushiftRight, Nat.shiftRight_eq_div_pow]

/-! ### The rules -/

/-- Settles O33: the shift of BitVec, as arithmetic. -/
theorem shlResult : Obligations.ShlResult := by
  intro a b s ha hb
  refine ⟨s.x a <<< (s.x b).toNat, toNat_shl _ _, fun h0 => ?_, BitVec.shiftLeft_eq_zero,
    alu_exec_of_binary (g := fun d s => d <<< s.toNat) rfl rfl ha hb⟩
  rw [h0]
  exact BitVec.shiftLeft_zero _

/-- Settles O34: the logical right shift of BitVec, as arithmetic. -/
theorem shrResult : Obligations.ShrResult := by
  intro a b s ha hb
  refine ⟨s.x a >>> (s.x b).toNat, toNat_shr _ _, fun h0 => ?_, BitVec.ushiftRight_eq_zero,
    alu_exec_of_binary (g := fun d s => d >>> s.toNat) rfl rfl ha hb⟩
  rw [h0]
  exact BitVec.ushiftRight_zero _

/-- Settles O27: addition of bytes is modulo 256. -/
theorem addResult : Obligations.AddResult := fun a b s ha hb =>
  ⟨s.x a + s.x b, BitVec.toNat_add _ _, alu_exec_of_binary (g := fun d s => d + s) rfl rfl ha hb⟩

/-- Settles O28: subtraction of bytes, in both cases of the borrow. -/
theorem subResult : Obligations.SubResult := fun a b s ha hb =>
  ⟨s.x a - s.x b, toNat_sub_cases _ _, alu_exec_of_binary (g := fun d s => d - s) rfl rfl ha hb⟩

/-- Settles O29: multiplication of bytes is modulo 256. -/
theorem mulResult : Obligations.MulResult := fun a b s ha hb =>
  ⟨s.x a * s.x b, BitVec.toNat_mul _ _, alu_exec_of_binary (g := fun d s => d * s) rfl rfl ha hb⟩

/-- Settles O31: the three operations of BitVec, read bit by bit. -/
theorem bitwiseResults : Obligations.BitwiseResults := fun a b s ha hb =>
  ⟨⟨s.x a &&& s.x b, fun _ => BitVec.getLsbD_and, alu_exec_of_binary (g := fun d s => d &&& s) rfl rfl ha hb⟩,
    ⟨s.x a ||| s.x b, fun _ => BitVec.getLsbD_or, alu_exec_of_binary (g := fun d s => d ||| s) rfl rfl ha hb⟩,
    ⟨s.x a ^^^ s.x b, fun _ => BitVec.getLsbD_xor, alu_exec_of_binary (g := fun d s => d ^^^ s) rfl rfl ha hb⟩⟩

/-- Settles O32: the complement, and the fault of a register that cannot be read. -/
theorem notResult : Obligations.NotResult := by
  intro a src s
  constructor
  · intro ha
    refine ⟨~~~ s.x a, BitVec.toNat_not, aluNot_of_none (src := src) ha, ?_⟩
    rw [exec_not_of_alu_ok (aluNot_of_none (src := a) ha), setX_pc]
  · intro f ha
    exact exec_not_of_alu_error (aluNot_of_some (src := a) ha)

end Sys2Proof.Machine
end

section
/-! SUPPORT. MOD by `MOD_SEMANTICS` (41_alu.md R134). -/

namespace Sys2Proof.Machine

section
variable {a b : Byte} {s : State}

theorem alu_mod_of_noop (h : s.params.modSemantics = .noop) : alu (opcodeMap .mod) a b s = .ok () s := by
  rw [alu_mod, aluMod, h]

theorem alu_mod_of_modulo (h : s.params.modSemantics = .modulo) : alu (opcodeMap .mod) a b s = aluTrueMod a b s := by
  rw [alu_mod, aluMod, h]

theorem aluTrueMod_of_readPair {f : FaultCause} (h : readPair a b s = .error f s) : aluTrueMod a b s = .error f s := by
  rw [aluTrueMod, bind_error h]

theorem aluTrueMod_of_zero (ha : s.readFault a = none) (hb : s.readFault b = none) (h0 : s.x b = 0) :
    aluTrueMod a b s = .error (.modByZero b) s := by
  rw [aluTrueMod, bind_ok (readPair_of_none ha hb)]
  simp only [if_pos h0, raise_apply]

theorem aluTrueMod_of_ne_zero (ha : s.readFault a = none) (hb : s.readFault b = none) (h0 : s.x b ≠ 0) :
    aluTrueMod a b s = .ok () (s.setX a (s.x a % s.x b)) := by
  rw [aluTrueMod, bind_ok (readPair_of_none ha hb)]
  simp only [if_neg h0, writeReg_of_lt (lt_of_readFault ha)]

end

/-- Settles O35: under `Noop` the ALU does nothing; under `Modulo` it is `aluTrueMod`, on each kind of operands. -/
theorem modFollowsItsSemantics : Obligations.ModFollowsItsSemantics := by
  intro a b s
  have hi : statementsOf (.mod a b) = aluInstr .mod a b := rfl
  refine ⟨fun hn => ⟨alu_mod_of_noop hn, exec_of_alu_ok hi (alu_mod_of_noop hn)⟩, fun hm => ⟨?_, ?_, ?_, ?_⟩⟩
  · intro f ha
    exact exec_of_alu_error hi ((alu_mod_of_modulo hm).trans (aluTrueMod_of_readPair (readPair_of_left ha)))
  · intro f ha hb
    exact exec_of_alu_error hi ((alu_mod_of_modulo hm).trans (aluTrueMod_of_readPair (readPair_of_right ha hb)))
  · intro ha hb h0
    have halu := (alu_mod_of_modulo hm).trans (aluTrueMod_of_zero ha hb h0)
    exact ⟨halu, exec_of_alu_error hi halu⟩
  · intro ha hb h0
    have halu := (alu_mod_of_modulo hm).trans (aluTrueMod_of_ne_zero ha hb h0)
    exact ⟨s.x a % s.x b, BitVec.toNat_umod, halu, exec_of_alu_setX hi halu⟩

end Sys2Proof.Machine
end

section
/-! SUPPORT. LDI and PRN (42_load_output.md R180, R181). -/

namespace Sys2Proof.Machine

section
variable {a imm : Byte} {s : State}

theorem exec_ldi_of_lt (ha : a.toNat < 8) : exec (.ldi a imm) s = .next { s.setX a imm with pc := s.pc + 3 } := by
  refine exec_of_ok ?_
  show ldiInstr a imm s = _
  rw [ldiInstr, immediate, bind_ok (writeReg_of_lt ha), advance_apply, setX_pc]

/-- The write is LDI's first statement, so its fault is taken in the state before the instruction. -/
theorem exec_ldi_of_le (ha : 8 ≤ a.toNat) : exec (.ldi a imm) s = .next (takeFault (.regOutOfRange a) s.ir s) := by
  refine exec_of_error ?_
  show ldiInstr a imm s = _
  rw [ldiInstr, bind_error (writeReg_of_le ha)]

/-- The read comes before the output event, so a fault leaves OUT. -/
theorem exec_prn_of_some {f : FaultCause} (ha : s.readFault a = some f) :
    exec (.prn a) s = .next (takeFault f s.ir s) := by
  refine exec_of_error ?_
  show prnInstr a s = _
  rw [prnInstr, bind_error (readReg_of_some ha)]

end

/-! ### The rules -/

/-- Settles O37: the register write decides, by the index alone. -/
theorem ldiRule : Obligations.LdiRule := fun _ _ _ => ⟨rfl, exec_ldi_of_lt, exec_ldi_of_le⟩

/-- Settles O38: the register read decides, and the output event follows it. -/
theorem prnRule : Obligations.PrnRule := fun _ _ => ⟨rfl, exec_prn_of_none, fun _ => exec_prn_of_some⟩

end Sys2Proof.Machine
end

section
/-! SUPPORT. PUSH and POP (43_stack.md R190, R191). -/

namespace Sys2Proof.Machine

/-! ### The state after the decrement -/

section
variable {a : Byte} {s : State}

@[simp] theorem spDown_sp (s : State) : s.spDown.sp = s.sp - 1 := sp_setX_sp _ _
@[simp] theorem spDown_pc (s : State) : s.spDown.pc = s.pc := setX_pc _ _ _
@[simp] theorem spDown_ir (s : State) : s.spDown.ir = s.ir := setX_ir _ _ _
@[simp] theorem spDown_mem (s : State) : s.spDown.mem = s.mem := setX_mem _ _ _

theorem readFault_spDown_sp (s : State) : s.spDown.readFault spIndex = none := readFault_sp_setX _ _

/-! ### PUSH -/

/-- The rest of PUSH runs after the decrement: the register is read, and its fault taken, there (D10). -/
theorem pushInstr_of_none (h7 : s.readFault spIndex = none) :
    pushInstr a s = (readReg a >>= fun v => storeAtSp v >>= fun _ => advance 2) s.spDown :=
  bind_ok (decrementSp_of_none h7)

theorem exec_push_of_sp_ne_zero (h7 : s.readFault spIndex = none) (ha : s.spDown.readFault a = none) (h0 : s.sp ≠ 0) :
    exec (.push a) s = .next { s.spDown with mem := s.mem.write s.pushAddr (s.spDown.x a), pc := s.pc + 2 } := by
  have hm : s.spDown.sp.toNat < memSize := by rw [spDown_sp]; exact pushAddr_lt h0
  refine exec_of_ok ((pushInstr_of_none h7).trans ?_)
  rw [bind_ok (readReg_of_none ha), bind_ok (storeAtSp_of_lt (readFault_spDown_sp s) hm), advance_apply]
  simp only [spDown_sp, spDown_mem, spDown_pc, State.pushAddr]

theorem exec_push_of_some {f : FaultCause} (h7 : s.readFault spIndex = none) (ha : s.spDown.readFault a = some f) :
    exec (.push a) s = .next (takeFault f s.ir s.spDown) := by
  rw [← spDown_ir]
  refine exec_of_error ((pushInstr_of_none h7).trans ?_)
  rw [bind_error (readReg_of_some ha)]

/-- Below address 0 the stack pointer wraps to 255, where there is no cell (R64). -/
theorem exec_push_of_sp_zero (h7 : s.readFault spIndex = none) (ha : s.spDown.readFault a = none) (h0 : s.sp = 0) :
    exec (.push a) s = .next (takeFault (.memOutOfRange 255) s.ir s.spDown) := by
  have h255 : s.spDown.sp.toNat = 255 := by rw [spDown_sp]; exact pushAddr_of_zero h0
  rw [← spDown_ir]
  refine exec_of_error ((pushInstr_of_none h7).trans ?_)
  rw [bind_ok (readReg_of_none ha), bind_error (storeAtSp_of_le (readFault_spDown_sp s) h255.ge), h255]

/-! ### POP -/

theorem sp_lt_memSize_of_ne (hne : s.sp ≠ 255) : s.sp.toNat < memSize := by
  by_contra hm
  exact hne (BitVec.eq_of_toNat_eq (toNat_eq_255 hm))

/-- The register is written before the increment, which so starts from the popped byte when the register is R7. -/
theorem exec_pop_of_lt (h7 : s.readFault spIndex = none) (hne : s.sp ≠ 255) (ha : a.toNat < 8) {u : State}
    (hu : u = s.setX a (s.mem.read s.popAddr)) :
    exec (.pop a) s = .next { u.setX spIndex (u.sp + 1) with pc := s.pc + 2 } := by
  have hu7 : u.readFault spIndex = none := hu ▸ readFault_setX_of_none a _ h7
  have hwrite : writeReg a (s.mem.read s.sp.toNat) s = .ok () u := hu ▸ writeReg_of_lt ha
  refine exec_of_ok ?_
  show popInstr a s = _
  rw [popInstr, bind_ok (loadAtSp_of_lt h7 (sp_lt_memSize_of_ne hne)), bind_ok hwrite, bind_ok (incrementSp_of_none hu7),
    advance_apply, setX_pc, hu, setX_pc]

/-- The load is POP's first statement, so its fault comes before that of the register. -/
theorem exec_pop_of_sp_eq (h7 : s.readFault spIndex = none) (h255 : s.sp = 255) :
    exec (.pop a) s = .next (takeFault (.memOutOfRange 255) s.ir s) := by
  have hsp : s.sp.toNat = 255 := by rw [h255]; rfl
  refine exec_of_error ?_
  show popInstr a s = _
  rw [popInstr, bind_error (loadAtSp_of_le h7 hsp.ge), hsp]

theorem exec_pop_of_le (h7 : s.readFault spIndex = none) (hne : s.sp ≠ 255) (ha : 8 ≤ a.toNat) :
    exec (.pop a) s = .next (takeFault (.regOutOfRange a) s.ir s) := by
  refine exec_of_error ?_
  show popInstr a s = _
  rw [popInstr, bind_ok (loadAtSp_of_lt h7 (sp_lt_memSize_of_ne hne)), bind_error (writeReg_of_le ha)]

end

/-! ### The rules -/

/-- Settles O39: after the decrement, first the read of the register decides, then the stack address. -/
theorem pushRule : Obligations.PushRule := by
  rintro a s u h7 rfl
  exact ⟨rfl, exec_push_of_sp_ne_zero h7, fun _ => exec_push_of_some h7, exec_push_of_sp_zero h7,
    x_setX_same s 7 _ spIndex_lt, fun _ hr => x_setX_other s _ hr⟩

/-- Settles O40: first the stack address decides, then the register index. -/
theorem popRule : Obligations.PopRule := by
  intro a s u h7 hu
  refine ⟨rfl, fun hne ha => exec_pop_of_lt h7 hne ha hu, exec_pop_of_sp_eq h7, exec_pop_of_le h7, ?_, ?_⟩
  · rintro rfl
    rw [hu, x_setX_same s 7 _ spIndex_lt]
  · intro ha
    rw [hu, x_setX_other s _ (Ne.symm ha)]

end Sys2Proof.Machine
end

section
/-! SUPPORT. CALL, RET and the jumps (44_control_transfer.md R200 to R207). -/

namespace Sys2Proof.Machine

/-! ### Instructions that end with a jump to a register -/

section
variable {i : Instr} {a : Byte} {s u : State} {p : BitVec 3 → Bool}

/-- An instruction whose statements come down to the jump in `u`: the target register is read there. -/
theorem exec_of_jumpToReg_of_none (hi : statementsOf i s = jumpToReg a u) (ha : u.readFault a = none) :
    exec i s = .next { u with pc := u.x a } :=
  exec_of_ok (hi.trans (jumpToReg_of_none ha))

/-- The jump's fault is taken in the state the statements before it left. -/
theorem exec_of_jumpToReg_of_some {f : FaultCause} (hi : statementsOf i s = jumpToReg a u)
    (ha : u.readFault a = some f) : exec i s = .next (takeFault f u.ir u) :=
  exec_of_error (hi.trans (jumpToReg_of_some ha))

/-! ### Conditional jumps -/

theorem jumpIf_of_taken (hp : p s.fl = true) : jumpIf p a s = jumpToReg a s := by
  rw [jumpIf_apply, if_pos hp]

/-- A jump that is not taken reads no register, so it completes whatever `a` is (D10). -/
theorem jumpIf_of_not_taken (hp : p s.fl = false) : jumpIf p a s = .ok () { s with pc := s.pc + 2 } := by
  rw [jumpIf_apply, hp, if_neg Bool.false_ne_true]

theorem isEqual_of_eq {fl : BitVec 3} (h : fl = 0b001) : isEqual fl = true := beq_iff_eq.mpr h

theorem isEqual_of_ne {fl : BitVec 3} (h : fl ≠ 0b001) : isEqual fl = false := beq_eq_false_iff_ne.mpr h

/-! ### CALL -/

/-- The state after CALL's push: the stack pointer decremented, the return address stored there. -/
def State.returnPushed (s : State) : State := { s.spDown with mem := s.mem.write s.pushAddr (s.pc + 2) }

theorem returnPushed_ir (s : State) : s.returnPushed.ir = s.ir := spDown_ir s

/-- CALL after its decrement. -/
theorem callInstr_of_none (h7 : s.readFault spIndex = none) :
    callInstr a s = (storeAtSp (s.pc + 2) >>= fun _ => jumpToReg a) s.spDown := by
  have hdown : decrementSp s = .ok () s.spDown := decrementSp_of_none h7
  rw [callInstr, bind_ok hdown, bind_ok (readPc_apply _), spDown_pc]

/-- Where the stack address has a cell, CALL jumps after its push, so the target register is checked last. -/
theorem callInstr_of_sp_ne_zero (h7 : s.readFault spIndex = none) (h0 : s.sp ≠ 0) :
    callInstr a s = jumpToReg a s.returnPushed := by
  have hm : s.spDown.sp.toNat < memSize := by rw [spDown_sp]; exact pushAddr_lt h0
  rw [callInstr_of_none h7, bind_ok (storeAtSp_of_lt (readFault_spDown_sp s) hm), spDown_sp, spDown_mem]
  rfl

/-- Below address 0 the stack pointer wraps to 255, where there is no cell (R64). -/
theorem exec_call_of_sp_zero (h7 : s.readFault spIndex = none) (h0 : s.sp = 0) :
    exec (.call a) s = .next (takeFault (.memOutOfRange 255) s.ir s.spDown) := by
  have h255 : s.spDown.sp.toNat = 255 := by rw [spDown_sp]; exact pushAddr_of_zero h0
  rw [← spDown_ir]
  refine exec_of_error ((callInstr_of_none h7).trans ?_)
  rw [bind_error (storeAtSp_of_le (readFault_spDown_sp s) h255.ge), h255]

/-! ### RET -/

theorem exec_ret_of_sp_ne (h7 : s.readFault spIndex = none) (hne : s.sp ≠ 255) :
    exec .ret s = .next { s.setX spIndex (s.sp + 1) with pc := s.mem.read s.popAddr } := by
  refine exec_of_ok ?_
  show retInstr s = _
  rw [retInstr, bind_ok (loadAtSp_of_lt h7 (sp_lt_memSize_of_ne hne)), bind_ok (incrementSp_of_none h7), setPc_apply,
    State.popAddr]

/-- The load is RET's first statement, so its fault is taken in the state before the instruction. -/
theorem exec_ret_of_sp_eq (h7 : s.readFault spIndex = none) (h255 : s.sp = 255) :
    exec .ret s = .next (takeFault (.memOutOfRange 255) s.ir s) := by
  have hsp : s.sp.toNat = 255 := by rw [h255]; rfl
  refine exec_of_error ?_
  show retInstr s = _
  rw [retInstr, bind_error (loadAtSp_of_le h7 hsp.ge), hsp]

end

/-! ### The rules -/

/-- Settles O41: first the stack address decides, then, after the push, the read of the target register. -/
theorem callRule : Obligations.CallRule := by
  rintro a s u w h7 rfl rfl
  have hcall (h0 : s.x 7 ≠ 0) : statementsOf (.call a) s = jumpToReg a s.returnPushed := callInstr_of_sp_ne_zero h7 h0
  refine ⟨rfl, fun h0 => exec_of_jumpToReg_of_none (hcall h0), exec_call_of_sp_zero h7, fun h0 f ha => ?_⟩
  rw [← returnPushed_ir]
  exact exec_of_jumpToReg_of_some (hcall h0) ha

/-- Settles O42: the stack address decides, and no register operand is read. -/
theorem retRule : Obligations.RetRule := fun _ h7 => ⟨rfl, exec_ret_of_sp_ne h7, exec_ret_of_sp_eq h7⟩

/-- Settles O43: JMP is the jump alone. -/
theorem jmpRule : Obligations.JmpRule := fun _ _ =>
  ⟨rfl, exec_of_jumpToReg_of_none rfl, fun _ => exec_of_jumpToReg_of_some rfl⟩

/-- Settles O44: `jumpIf` on each value of `isEqual`. -/
theorem jeqRule : Obligations.JeqRule := by
  intro a s
  have htaken (hfl : s.fl = 0b001) : statementsOf (.jeq a) s = jumpToReg a s := jumpIf_of_taken (isEqual_of_eq hfl)
  exact ⟨rfl, fun hfl => exec_of_jumpToReg_of_none (htaken hfl),
    fun hfl => exec_of_ok (jumpIf_of_not_taken (isEqual_of_ne hfl)),
    fun hfl _ => exec_of_jumpToReg_of_some (htaken hfl)⟩

/-- Settles O45: `jumpIf` on each value of `isEqual`, negated. -/
theorem jneRule : Obligations.JneRule := by
  intro a s
  have htaken (hfl : s.fl ≠ 0b001) : statementsOf (.jne a) s = jumpToReg a s :=
    jumpIf_of_taken (by rw [isEqual_of_ne hfl, Bool.not_false])
  exact ⟨rfl, fun hfl => exec_of_jumpToReg_of_none (htaken hfl),
    fun hfl => exec_of_ok (jumpIf_of_not_taken (by rw [isEqual_of_eq hfl, Bool.not_true])),
    fun hfl _ => exec_of_jumpToReg_of_some (htaken hfl)⟩

end Sys2Proof.Machine
end

section
/-! SUPPORT. HLT (45_halt.md R220) and the end of fetching (40_control_unit.md R103, R108). -/

namespace Sys2Proof.Machine

section
variable {s t : State}

theorem halted_of_executes_hlt (hs : s.executes .hlt) (h : step s = .next t) : t.ctrl = .halted := by
  rw [step_of_executes hs, exec_hlt] at h
  cases h; rfl

/-- The fetch is the only thing that happens in a step whose window leaves memory, whatever the opcode byte is (R103). -/
theorem faulted_of_window_outside (hr : s.input ≠ .rst) (hc : s.ctrl = .running) (hpc : 253 ≤ s.pc.toNat)
    (h : step s = .next t) : t.ctrl = .faulted ∧ t.faultCause = 3 := by
  obtain ⟨ir, opa, hs⟩ := step_of_window_outside hr hc hpc
  rw [hs] at h
  cases h
  exact ⟨rfl, rfl⟩

end

/-! ### The rule -/

/-- Settles O46: HLT leaves the block in HALTED, where a step is `afterInput`, and no window from 253 on is fetched whole. -/
theorem hltRule : Obligations.HltRule :=
  ⟨rfl, exec_hlt, fun _ _ hs h hrt => step_of_stopped hrt (.inl (halted_of_executes_hlt hs h)),
    fun _ _ => faulted_of_window_outside⟩

end Sys2Proof.Machine
end

section
/-! SUPPORT. Fault entry, and which faults leave an effect (60_exceptions.md R242, R243). -/

namespace Sys2Proof.Machine

/-! ### The state at the raise -/

/-- What the statements before a raise, those of the fetch among them, leave alone (R242). -/
abbrev keptAtRaise (s u : State) : Prop :=
  u.pc = s.pc ∧ u.fl = s.fl ∧ u.out = s.out ∧ u.ctrl = s.ctrl ∧ faultRegsKept s u

section
variable {i : Instr} {f : FaultCause} {s t u : State}

theorem faultsIn_of_error (h : statementsOf i s = .error f u) : FaultsIn i f s u := by
  rcases statements_cases i s with ⟨g, v, hs, _, hv⟩ | ⟨v, hs, _⟩
  · rw [hs] at h; cases h
    exact hv
  · rw [hs] at h; cases h

theorem keptAtRaise_of_faultsIn (h : FaultsIn i f s u) : keptAtRaise s u := by
  obtain ⟨_, hregs, hctrl, hpc, hfl, hout⟩ := faultsIn_control h
  exact ⟨hpc, hfl, hout, hctrl, hregs⟩

theorem restKept_of_faultsIn (h : FaultsIn i f s u) : restKept s u := (faultsIn_control h).1

theorem ir_of_faultsIn (h : FaultsIn i f s u) : u.ir = s.ir := by
  obtain ⟨_, _, _, hir, _⟩ := restKept_of_faultsIn h
  exact hir

/-- The statements of an instruction leave IR, so FAULT_OP is the opcode byte the fetch latched. -/
theorem exec_of_faultsIn (hs : statementsOf i s = .error f u) (hu : FaultsIn i f s u) :
    exec i s = .next (takeFault f s.ir u) := by
  rw [exec_of_error hs, ir_of_faultsIn hu]

/-- FAULT_PC is the address of the faulting instruction, where the statements before the raise have left PC. -/
theorem takeFault_eq (f : FaultCause) (op : Byte) (h : u.pc = s.pc) :
    takeFault f op u =
      { u with faultCause := f.code, faultPc := s.pc, faultOp := op, faultValue := f.value, ctrl := .faulted } := by
  rw [takeFault, h]

/-! ### What a step raises -/

/-- A step in RUNNING takes, in the state at the raise, the fault its statements raise, or they raise none and an instruction
completes. -/
theorem running_raises_or_completes (hr : s.input ≠ .rst) (hc : s.ctrl = .running) :
    (∃ f op u, s.raised = some (f, op, u) ∧ step s = .next (takeFault f op u) ∧
      op = (if s.pc.toNat = 255 then 0 else s.fetchByte 0) ∧ keptAtRaise s u) ∨
    (s.raised = none ∧ ∃ i t, step s = .next t ∧ Completes i s.fetched t) := by
  by_cases hpc : s.pc.toNat ≤ 252
  · have hf : s.fetches := ⟨hr, hc, hpc⟩
    have hop : s.fetchByte 0 = if s.pc.toNat = 255 then 0 else s.fetchByte 0 := (if_neg (by omega)).symm
    cases hd : s.decoded with
    | unknown o =>
      exact .inl ⟨_, _, _, by simp only [raised_of_lt hpc, hd], step_of_unknown hf hd, hop, rfl, rfl, rfl, rfl,
        rfl, rfl, rfl, rfl⟩
    | instr i =>
      rcases statements_cases i s.fetched with ⟨f, u, hs, _, hu⟩ | ⟨t, hs, hcompl⟩
      · exact .inl ⟨f, s.fetchByte 0, u, by simp only [raised_of_lt hpc, hd, hs],
          (step_of_executes ⟨hf, hd⟩).trans (exec_of_faultsIn hs hu), hop,
          keptAtRaise_of_faultsIn (s := s.fetched) hu⟩
      · exact .inr ⟨by simp only [raised_of_lt hpc, hd, hs], i, t,
          (step_of_executes ⟨hf, hd⟩).trans (exec_of_ok hs), hcompl⟩
  · obtain ⟨op, u, hop, hu, hraised, hs⟩ := raised_of_le (s := s) (by omega)
    refine .inl ⟨_, op, u, hraised, (step_of_running hr hc).trans hs, hop, ?_⟩
    rw [hu]
    exact ⟨rfl, rfl, rfl, rfl, rfl, rfl, rfl, rfl⟩

/-! ### The effects a fault leaves -/

/-- An instruction executed in RUNNING that ends in FAULTED has taken a fault in the state `FaultsIn` names. -/
theorem faultsIn_of_exec (hc : s.ctrl = .running) (h : exec i s = .next t) (hf : t.ctrl = .faulted) :
    ∃ f u, t = takeFault f s.ir u ∧ FaultsIn i f s u := by
  rcases exec_cases h with ⟨f, u, ht, _, hu⟩ | hcompl
  · exact ⟨f, u, ht, hu⟩
  · exact absurd hf (completes_not_faulted hc hcompl)

theorem eq_of_faultsIn (h : FaultsIn i f s u) (hpush : i.mnemonic ≠ .push) (hcall : i.mnemonic ≠ .call) : u = s := by
  cases i with
  | push a => exact absurd rfl hpush
  | call a => exact absurd rfl hcall
  | _ => exact h

theorem spDown_of_faultsIn_push (h : FaultsIn i f s u) (hi : i.mnemonic = .push) (h7 : s.readFault spIndex = none) :
    u = s.spDown := by
  cases i with
  | push a =>
    rcases h with ⟨hne, _⟩ | ⟨_, hu⟩
    · exact absurd h7 hne
    · exact hu
  | _ => cases hi

/-- CALL's store is what raises, or the return address has been stored. -/
theorem faultsIn_call_cases (h : FaultsIn i f s u) (hi : i.mnemonic = .call) (h7 : s.readFault spIndex = none) :
    (s.sp = 0 ∧ f = .memOutOfRange 255 ∧ u = s.spDown) ∨ (s.sp ≠ 0 ∧ u = s.returnPushed) := by
  cases i with
  | call a =>
    rcases h with ⟨hne, _⟩ | ⟨_, h0, hf, hu⟩ | ⟨_, h0, hu⟩
    · exact absurd h7 hne
    · exact .inl ⟨h0, hf, hu⟩
    · exact .inr ⟨h0, hu⟩
  | _ => cases hi

/-- PUSH and CALL raise with the stack pointer decremented, and with nothing but memory changed besides. -/
theorem spDown_of_faultsIn (h : FaultsIn i f s u) (hi : i.mnemonic = .push ∨ i.mnemonic = .call)
    (h7 : s.readFault spIndex = none) : u = { s.spDown with mem := u.mem } := by
  rcases hi with hi | hi
  · rw [spDown_of_faultsIn_push h hi h7]
  · rcases faultsIn_call_cases h hi h7 with ⟨_, _, rfl⟩ | ⟨_, rfl⟩ <;> rfl

theorem spDown_regs (s : State) :
    s.spDown.x 7 = s.x 7 - 1 ∧ s.spDown.isValid 7 = true ∧ ∀ r : Byte, r ≠ 7 → regKept s s.spDown r :=
  ⟨spDown_sp s, isValid_setX_same s 7 _ spIndex_lt, fun _ hr => ⟨x_setX_other s _ hr, isValid_setX_other s _ hr⟩⟩

end

/-! ### The rules -/

/-- Settles O23: the step by what it raises (`running_raises_or_completes`), the instruction by `FaultsIn`. -/
theorem faultEntryRecordsAndStops : Obligations.FaultEntryRecordsAndStops := by
  refine ⟨fun s hr hc => ?_, fun i s => ⟨fun f u hs => ?_, fun u => exec_of_ok⟩,
    fun s hc hr => step_of_stopped hr (.inr hc)⟩
  · rcases running_raises_or_completes hr hc with ⟨f, op, u, hraised, hs, hop, hkept⟩ | ⟨hraised, i, t, hs, hcompl⟩
    · refine ⟨fun f' op' u' h => ?_, fun h => by rw [hraised] at h; cases h⟩
      rw [hraised] at h; cases h
      obtain ⟨hpc, hfl, hout, hctrl, hregs⟩ := hkept
      exact ⟨hs.trans (congrArg _ (takeFault_eq f op hpc)), hop, hpc, hfl, hout, hctrl.trans hc, hregs⟩
    · refine ⟨fun f' op' u' h => (by rw [hraised] at h; cases h), fun _ => ⟨t, hs, ?_, ?_⟩⟩
      · exact completes_not_faulted (s := s.fetched) hc hcompl
      · obtain ⟨_, hregs, _⟩ := completes_control hcompl
        exact hregs
  · have hu := faultsIn_of_error hs
    obtain ⟨hpc, hfl, hout, hctrl, hregs⟩ := keptAtRaise_of_faultsIn hu
    exact ⟨(exec_of_faultsIn hs hu).trans (congrArg _ (takeFault_eq f s.ir hpc)), hpc, hfl, hout, hctrl, hregs,
      restKept_of_faultsIn hu⟩

/-- Settles O24: a step that executes no instruction by `running_cases`, an instruction by the state `FaultsIn` names. -/
theorem faultsKeepPartialEffects : Obligations.FaultsKeepPartialEffects := by
  refine ⟨fun s t hr hc hno h => ?_, fun i s t hc hv h hf => ?_⟩
  · rcases running_cases hr hc h with ⟨i, ⟨⟨_, _, hpc⟩, hd⟩, _⟩ | ⟨f, op, u, _, _, rfl, _, hu⟩
    · rcases hno with hpc' | hd'
      · omega
      · rw [hd'] at hd; cases hd
    · rw [hu]; rfl
  · have h7 : s.readFault spIndex = none := readFault_of_isValid spIndex_lt hv
    obtain ⟨f, u, rfl, hu⟩ := faultsIn_of_exec hc h hf
    refine ⟨fun hpush hcall => ?_, fun hi => ?_, fun hi => ?_, fun hi h0 => ?_, fun hi h0 => ?_⟩
    · rw [eq_of_faultsIn hu hpush hcall]; rfl
    · obtain ⟨hpc, hfl, hout, _, _⟩ := keptAtRaise_of_faultsIn hu
      have hkept : restKept s u := restKept_of_faultsIn hu
      rw [spDown_of_faultsIn hu hi h7] at hpc hfl hout hkept ⊢
      obtain ⟨hx, hvalid, hregs⟩ := spDown_regs s
      exact ⟨hx, hvalid, hregs, hpc, hfl, hout, hkept⟩
    · rw [takeFault_mem, spDown_of_faultsIn_push hu hi h7, spDown_mem]
    · rcases faultsIn_call_cases hu hi h7 with ⟨_, rfl, rfl⟩ | ⟨hne, _⟩
      · obtain ⟨hx, _, _⟩ := spDown_regs s
        exact ⟨spDown_mem s, rfl, by rw [takeFault_x, hx, h0]; rfl⟩
      · exact absurd h0 hne
    · rcases faultsIn_call_cases hu hi h7 with ⟨hsp, _⟩ | ⟨_, rfl⟩
      · exact absurd hsp h0
      · rfl

end Sys2Proof.Machine
end

section
/-! SUPPORT. Reset, and what clears a fault (70_reset_and_hazards.md R270, R286). -/

namespace Sys2Proof.Machine

/-! ### The reset values -/

section
variable (s : State)

/-- R0 to R6 are reset to 0, R7 to `SP_RESET` (R10, R30). -/
theorem assertReset_x {r : Byte} (hr : r.toNat < 8) :
    (assertReset s).x r = if r.toNat = 7 then spReset else 0 := by
  rw [State.x, dif_pos hr]
  generalize r.toNat = n at hr
  interval_cases n <;> rfl

/-- Of the registers only R7 counts as written after reset (R33). -/
theorem assertReset_isValid {r : Byte} (hr : r.toNat < 8) :
    (assertReset s).isValid r = decide (r.toNat = 7) := by
  rw [State.isValid, dif_pos hr]
  generalize r.toNat = n at hr
  interval_cases n <;> rfl

end

/-! ### Who writes the fault registers -/

section
variable {s t : State}

theorem idleStep_faultRegsKept {e : HostInput} (he : e ≠ .rst) : faultRegsKept s (idleStep e s) := by
  obtain ⟨_, _, _, h⟩ := idleStep_writes s he
  rw [h]
  exact ⟨rfl, rfl, rfl, rfl⟩

/-- A step without reset leaves the fault registers as they were, or it takes a fault, whose cause is not 0. -/
theorem faultRegsKept_or_faultCause_ne_zero (hr : s.input ≠ .rst) (h : step s = .next t) :
    faultRegsKept s t ∨ t.faultCause ≠ 0 := by
  rcases step_cases s with ⟨hrst, _⟩ | ⟨_, _, hs⟩ | ⟨_, hc, _⟩ | ⟨_, _, hs⟩
  · exact absurd hrst hr
  · rw [hs] at h; cases h
    exact .inl (idleStep_faultRegsKept (s := s.afterInput) hr)
  · rcases running_raises_or_completes hr hc with ⟨f, op, u, _, hs, _⟩ | ⟨_, i, u, hs, hcompl⟩
    · rw [hs] at h; cases h
      exact .inr f.code_ne_zero
    · rw [hs] at h; cases h
      obtain ⟨_, hregs, _⟩ := completes_control hcompl
      exact .inl hregs
  · rw [hs] at h; cases h
    exact .inl ⟨rfl, rfl, rfl, rfl⟩

end

/-! ### The rules -/

/-- Settles O16: a step without reset writes a fault cause only to set one (`faultRegsKept_or_faultCause_ne_zero`). -/
theorem onlyResetClearsAFault : Obligations.OnlyResetClearsAFault := by
  intro s t h
  refine ⟨fun hr hc => ?_, fun hr hne => ?_, fun hr => ?_⟩
  · rw [step_of_stopped hr hc.symm] at h
    cases h; rfl
  · rcases faultRegsKept_or_faultCause_ne_zero hr h with ⟨hcause, _⟩ | hcause
    · rw [hcause]; exact hne
    · exact hcause
  · rw [step_of_rst hr] at h
    cases h
    exact ⟨rfl, rfl, rfl, rfl, rfl⟩

/-- Settles O1: the next state is `assertReset`, whose registers are read by `assertReset_x` and `assertReset_isValid`. -/
theorem resetGivesStatedValues : Obligations.ResetGivesStatedValues := by
  intro s hr
  refine ⟨_, step_of_rst hr, rfl, rfl, rfl, (assertReset_x _ (by decide)).trans (if_pos rfl), fun _ r hlt => ?_,
    fun r hlt => ?_, rfl, rfl, rfl, rfl, fun addr => Memory.read_nil addr, rfl, rfl⟩
  · rw [assertReset_x _ (by omega), if_neg (by omega)]
  · rw [assertReset_isValid _ hlt, decide_eq_true_iff]
    exact BitVec.toNat_inj (x := r) (y := 7)

end Sys2Proof.Machine
end

section
/-! SUPPORT. What one instruction may write, said once (41_alu.md, 42_load_output.md, 43_stack.md, 44_control_transfer.md), and
the frames that follow. -/

namespace Sys2Proof.Machine

/-! ### Registers -/

/-- The registers the statements of an instruction may write. -/
def writtenRegs : Instr → List Byte
  | .hlt | .prn _ | .jmp _ | .jeq _ | .jne _ | .cmp _ _ => []
  | .push _ | .call _ | .ret => [spIndex]
  | .pop a => [a, spIndex]
  | .not a | .ldi a _ | .add a _ | .sub a _ | .mul a _ | .mod a _ => [a]
  | .and a _ | .or a _ | .xor a _ | .shl a _ | .shr a _ => [a]

section
variable {i : Instr} {f : FaultCause} {s t u : State} {r : Byte}

theorem regKept_setX (s : State) {i r : Byte} (v : Byte) (h : r ≠ i) : regKept s (s.setX i v) r :=
  ⟨x_setX_other s v h, isValid_setX_other s v h⟩

theorem binaryCompletes_regKept {g : Byte → Byte → Byte} {a b : Byte} (h : BinaryCompletes g a b s t) (hr : r ≠ a) :
    regKept s t r := by
  obtain ⟨_, _, rfl⟩ := h
  exact regKept_setX s _ hr

/-- A completed instruction leaves every register but those of `writtenRegs`. -/
theorem completes_regKept (h : Completes i s t) (hr : r ∉ writtenRegs i) : regKept s t r := by
  cases i with
  | hlt | cmp a b | jmp a | jeq a | jne a => cases h; exact ⟨rfl, rfl⟩
  | prn a => obtain ⟨_, rfl⟩ := h; exact ⟨rfl, rfl⟩
  | not a | ldi a imm => obtain ⟨_, rfl⟩ := h; exact regKept_setX s _ (List.ne_of_not_mem_cons hr)
  | ret | push a | call a => obtain ⟨_, _, rfl⟩ := h; exact regKept_setX s _ (List.ne_of_not_mem_cons hr)
  | pop a =>
    obtain ⟨_, _, _, u, rfl, rfl⟩ := h
    obtain ⟨ha, h7⟩ := List.ne_and_not_mem_of_not_mem_cons hr
    obtain ⟨hx, hvalid⟩ := regKept_setX (s.setX a (s.mem.read s.popAddr)) _ (List.ne_of_not_mem_cons h7)
    exact ⟨hx.trans (x_setX_other s _ ha), hvalid.trans (isValid_setX_other s _ ha)⟩
  | mod a b =>
    rcases h with ⟨_, rfl⟩ | ⟨_, hb⟩
    · exact ⟨rfl, rfl⟩
    · exact binaryCompletes_regKept hb (List.ne_of_not_mem_cons hr)
  | add a b | sub a b | mul a b | and a b | or a b | xor a b =>
    exact binaryCompletes_regKept h (List.ne_of_not_mem_cons hr)
  | shl a b => exact binaryCompletes_regKept (g := fun d s => d <<< s.toNat) h (List.ne_of_not_mem_cons hr)
  | shr a b => exact binaryCompletes_regKept (g := fun d s => d >>> s.toNat) h (List.ne_of_not_mem_cons hr)

/-- The statements before a raise leave every register but those of `writtenRegs`. -/
theorem faultsIn_regKept (h : FaultsIn i f s u) (hr : r ∉ writtenRegs i) : regKept s u r := by
  cases i with
  | push a =>
    rcases h with ⟨_, rfl⟩ | ⟨_, rfl⟩
    · exact ⟨rfl, rfl⟩
    · exact regKept_setX s _ (List.ne_of_not_mem_cons hr)
  | call a =>
    rcases h with ⟨_, rfl⟩ | ⟨_, _, _, rfl⟩ | ⟨_, _, rfl⟩
    · exact ⟨rfl, rfl⟩
    · exact regKept_setX s _ (List.ne_of_not_mem_cons hr)
    · exact regKept_setX s _ (List.ne_of_not_mem_cons hr)
  | _ => cases h; exact ⟨rfl, rfl⟩

theorem exec_regKept (h : exec i s = .next t) (hr : r ∉ writtenRegs i) : regKept s t r := by
  rcases exec_cases h with ⟨f, u, rfl, _, hu⟩ | hc
  · exact (faultsIn_regKept hu hr :)
  · exact completes_regKept hc hr

/-! ### Memory, OUT, FL, STATE and the rest -/

/-- An instruction leaves memory as it was, or it is PUSH or CALL and writes the one cell at the decremented stack pointer. -/
theorem exec_mem (h : exec i s = .next t) :
    t.mem = s.mem ∨ ((∃ a, i = .push a ∨ i = .call a) ∧ s.pushAddr < 255 ∧ ∃ v, t.mem = s.mem.write s.pushAddr v) := by
  rcases exec_cases h with ⟨f, u, rfl, _, hu⟩ | hc
  · rcases faultsIn_mem hu with hm | ⟨⟨a, hi⟩, hw⟩
    · exact .inl hm
    · exact .inr ⟨⟨a, .inr hi⟩, hw⟩
  · exact completes_mem hc

theorem exec_memKept (h : exec i s = .next t) (hpush : i.mnemonic ≠ .push) (hcall : i.mnemonic ≠ .call) :
    memKept s t := by
  rcases exec_mem h with hm | ⟨⟨a, rfl | rfl⟩, _⟩
  · exact fun addr => by rw [hm]
  · exact absurd rfl hpush
  · exact absurd rfl hcall

theorem exec_read_of_ne (h : exec i s = .next t) {addr : Nat} (hne : addr ≠ s.pushAddr) :
    t.mem.read addr = s.mem.read addr := by
  rcases exec_mem h with hm | ⟨_, _, v, hm⟩
  · rw [hm]
  · rw [hm, Memory.read_write_other _ v hne]

theorem exec_fl_kept (h : exec i s = .next t) (hcmp : i.mnemonic ≠ .cmp) : t.fl = s.fl :=
  (exec_fl h).resolve_right (by rintro ⟨a, b, rfl⟩; exact hcmp rfl)

theorem exec_out_kept (h : exec i s = .next t) (hprn : i.mnemonic ≠ .prn) : t.out = s.out :=
  (exec_out h).resolve_right (by rintro ⟨a, rfl, _⟩; exact hprn rfl)

theorem exec_restKept (h : exec i s = .next t) : restKept s t := by
  rcases exec_cases h with ⟨f, u, rfl, _, hu⟩ | hc
  · exact (restKept_of_faultsIn hu :)
  · exact (completes_control hc).1

theorem exec_controlKept (h : exec i s = .next t) (hhlt : i.mnemonic ≠ .hlt) : controlKept s t := by
  rcases exec_control h (by rintro rfl; exact hhlt rfl) with hkept | ⟨hf, _, _, hpc⟩
  · exact .inl hkept
  · exact .inr ⟨hf, hpc⟩

end

/-! ### The rules -/

theorem withOperands_mnemonic_ne {ms : List Mnemonic} {m k : Mnemonic} {a b : Byte} (hm : m ∈ ms) (hk : k ∉ ms) :
    (m.withOperands a b).mnemonic ≠ k := by
  rw [mnemonic_withOperands]
  rintro rfl
  exact hk hm

/-- Settles O49: the one register of `writtenRegs`, and none for MOD under `Noop`. -/
theorem registerWritingFrame : Obligations.RegisterWritingFrame := by
  intro m hm a b s t h
  have hne {k : Mnemonic} := withOperands_mnemonic_ne (k := k) (a := a) (b := b) hm
  have hregs : writtenRegs (m.withOperands a b) = [a] := by fin_cases hm <;> rfl
  refine ⟨fun r hr => exec_regKept h (by rw [hregs]; simpa using hr), ?_,
    exec_memKept h (hne (by decide)) (hne (by decide)), exec_fl_kept h (hne (by decide)),
    exec_out_kept h (hne (by decide)), exec_restKept h, exec_controlKept h (hne (by decide))⟩
  rintro rfl hn
  have hmod : exec (.mod a b) s = .next { s with pc := s.pc + 3 } := exec_of_alu_ok (m := .mod) rfl (alu_mod_of_noop hn)
  rw [Mnemonic.withOperands, hmod] at h
  cases h
  exact ⟨rfl, rfl⟩

/-- Settles O50: `writtenRegs` is empty, and each form has its one exception. -/
theorem noRegisterFrame : Obligations.NoRegisterFrame := by
  intro m hm a b s t h
  have hne {k : Mnemonic} := withOperands_mnemonic_ne (k := k) (a := a) (b := b) hm
  have hmn : (m.withOperands a b).mnemonic = m := mnemonic_withOperands m a b
  have hregs : writtenRegs (m.withOperands a b) = [] := by fin_cases hm <;> rfl
  refine ⟨fun r => exec_regKept h (by rw [hregs]; exact List.not_mem_nil),
    exec_memKept h (hne (by decide)) (hne (by decide)), fun hcmp => exec_fl_kept h (hmn.trans_ne hcmp),
    fun hprn => exec_out_kept h (hmn.trans_ne hprn), exec_restKept h,
    fun hhlt => exec_controlKept h (hmn.trans_ne hhlt), ?_⟩
  rintro rfl
  rw [Mnemonic.withOperands, exec_hlt] at h
  cases h
  exact ⟨rfl, rfl, rfl, rfl⟩

/-- Settles O51: PUSH and CALL, the two instructions `exec_mem` lets write memory. -/
theorem stackStoreFrame : Obligations.StackStoreFrame := by
  intro m hm a b s t h
  have hne {k : Mnemonic} := withOperands_mnemonic_ne (k := k) (a := a) (b := b) hm
  have hregs : writtenRegs (m.withOperands a b) = [7] := by fin_cases hm <;> rfl
  exact ⟨fun r hr => exec_regKept h (by rw [hregs]; simpa using hr), fun addr => exec_read_of_ne h,
    exec_fl_kept h (hne (by decide)), exec_out_kept h (hne (by decide)), exec_restKept h,
    exec_controlKept h (hne (by decide))⟩

/-- Settles O52: POP and RET are not among the instructions `exec_mem` lets write memory. -/
theorem stackLoadFrame : Obligations.StackLoadFrame := by
  constructor
  · intro a s t h
    exact ⟨fun r ha h7 => exec_regKept h (by simpa [writtenRegs, spIndex, ha] using h7), exec_memKept h nofun nofun,
      exec_fl_kept h nofun, exec_out_kept h nofun, exec_restKept h, exec_controlKept h nofun⟩
  · intro s t h
    exact ⟨fun r h7 => exec_regKept h (by simpa [writtenRegs, spIndex] using h7), exec_memKept h nofun nofun,
      exec_fl_kept h nofun, exec_out_kept h nofun, exec_restKept h, exec_controlKept h nofun⟩

end Sys2Proof.Machine
end

section
/-! SUPPORT. Load and start in IDLE (40_control_unit.md R113), and who writes memory (10_state.md R43, 20_memory.md R65). -/

namespace Sys2Proof.Machine

/-! ### Load and start in IDLE -/

section
variable {s : State} {addr data : Byte}

theorem idleStep_load_of_lt (h : addr.toNat < memSize) :
    idleStep (.load addr data) s = { s with mem := s.mem.write addr.toNat data } := by
  simp [idleStep, loadByte, inMemory, h]

theorem idleStep_load_of_le (h : memSize ≤ addr.toNat) : idleStep (.load addr data) s = { s with loadErr := true } := by
  simp [idleStep, loadByte, inMemory, Nat.not_lt.mpr h]

theorem idleStep_start_of_ok (h : s.loadErr = false) : idleStep .start s = { s with ctrl := .running } := by
  simp [idleStep, startBlock, h]

theorem idleStep_start_of_loadErr (h : s.loadErr = true) : idleStep .start s = s := by simp [idleStep, startBlock, h]

end

/-! ### Who writes memory -/

section
variable {s t : State}

/-- In IDLE a host's act other than reset leaves memory, or it is a load and writes its own cell. -/
theorem idleStep_mem {e : HostInput} (s : State) (he : e ≠ .rst) :
    (idleStep e s).mem = s.mem ∨
      ∃ a d, e = .load a d ∧ a.toNat < memSize ∧ (idleStep e s).mem = s.mem.write a.toNat d := by
  cases e with
  | quiet => exact .inl rfl
  | rst => exact absurd rfl he
  | start =>
    cases hl : s.loadErr with
    | false => rw [idleStep_start_of_ok hl]; exact .inl rfl
    | true => rw [idleStep_start_of_loadErr hl]; exact .inl rfl
  | load a d =>
    by_cases hlt : a.toNat < memSize
    · rw [idleStep_load_of_lt hlt]
      exact .inr ⟨a, d, rfl, hlt, rfl⟩
    · rw [idleStep_load_of_le (Nat.not_lt.mp hlt)]
      exact .inl rfl

/-- A step without reset leaves memory, or it writes one cell: a load in IDLE, or PUSH or CALL. -/
theorem step_mem (hr : s.input ≠ .rst) (h : step s = .next t) :
    t.mem = s.mem ∨
    (s.ctrl = .idle ∧ ∃ a d, s.input = .load a d ∧ t.mem = s.mem.write a.toNat d) ∨
    ∃ a v, (s.executes (.push a) ∨ s.executes (.call a)) ∧ t.mem = s.mem.write s.pushAddr v := by
  rcases step_cases s with ⟨hrst, _⟩ | ⟨_, hc, hs⟩ | ⟨_, hc, _⟩ | ⟨_, _, hs⟩
  · exact absurd hrst hr
  · rw [hs] at h; cases h
    rcases idleStep_mem s.afterInput hr with hm | ⟨a, d, he, _, hm⟩
    · exact .inl hm
    · exact .inr (.inl ⟨hc, a, d, he, hm⟩)
  · rcases running_cases hr hc h with ⟨i, hi, he⟩ | ⟨f, op, u, _, _, rfl, _, hu⟩
    · rcases exec_mem he with hm | ⟨⟨a, hpc⟩, _, v, hm⟩
      · exact .inl hm
      · refine .inr (.inr ⟨a, v, ?_, hm⟩)
        rcases hpc with rfl | rfl
        · exact .inl hi
        · exact .inr hi
    · exact .inl (by rw [takeFault_mem, hu])
  · rw [hs] at h; cases h
    exact .inl rfl

end

/-- Settles O19: each write of `step_mem` changes its own cell alone. -/
theorem onlyPushCallAndLoadWriteMemory : Obligations.OnlyPushCallAndLoadWriteMemory := by
  intro s t addr h hne
  by_cases hr : s.input = .rst
  · exact .inl hr
  · have hown {addr' : Nat} {v : Byte} (hm : t.mem = s.mem.write addr' v) : addr = addr' := by
      by_contra hother
      exact hne (by rw [hm, Memory.read_write_other _ v hother])
    rcases step_mem hr h with hm | ⟨hc, a, d, he, hm⟩ | ⟨a, v, hi, hm⟩
    · exact absurd (by rw [hm]) hne
    · exact .inr (.inl ⟨hc, a, d, he, hown hm⟩)
    · exact .inr (.inr ⟨a, hi, hown hm⟩)

end Sys2Proof.Machine
end

section
/-! SUPPORT. The invariant of the reachable states (10_state.md R33, R37, R41; 40_control_unit.md R100, R113; 60_exceptions.md
R241, R242): reset meets it and every step keeps it. -/

namespace Sys2Proof.Machine

/-! ### The parts of the invariant -/

section
variable {s t u : State} {f : FaultCause}

theorem inv_iff : s.inv = true ↔
    s.mem.wf = true ∧ s.flLegal = true ∧ s.isValid spIndex = true ∧ s.faultRegsOk = true ∧ s.idleOk = true := by
  simp only [State.inv, Bool.and_eq_true, and_assoc]

theorem flLegal_cmpFlags (d s : Byte) {t : State} (h : t.fl = cmpFlags d s) : t.flLegal = true := by
  unfold cmpFlags at h
  split_ifs at h <;> simp [State.flLegal, h]

theorem flLegal_of_eq (h : t.fl = s.fl) : t.flLegal = s.flLegal := by rw [State.flLegal, h, State.flLegal]

/-- Outside FAULTED the fault registers are checked against 0, whatever else the state holds. -/
theorem faultRegsOk_of_kept (hs : s.ctrl ≠ .faulted) (ht : t.ctrl ≠ .faulted) (h : faultRegsKept s t) :
    t.faultRegsOk = s.faultRegsOk := by
  obtain ⟨hcause, hpc, hop, hvalue⟩ := h
  rw [State.faultRegsOk, if_neg ht, hcause, hpc, hop, hvalue, State.faultRegsOk, if_neg hs]

theorem idleOk_of_not_idle (h : s.ctrl ≠ .idle) : s.idleOk = !s.loadErr := by rw [State.idleOk, if_neg h]

/-- A cause a program can raise: an instruction's, or an unknown opcode. -/
def ProgramFault (s : State) (f : FaultCause) : Prop := InstrFault s f ∨ ∃ o, f = .unknownOpcode o

/-- Taking a cause a program can raise records what the invariant allows in FAULTED (R241). -/
theorem faultRegsOk_takeFault (op : Byte) (hf : ProgramFault s f) (hp : u.params = s.params) :
    (takeFault f op u).faultRegsOk = true := by
  rcases hf with hf | ⟨o, rfl⟩
  · cases f with
    | unknownOpcode o | unsupportedAluOp o => exact absurd hf id
    | memOutOfRange a => cases hf; simp [State.faultRegsOk, FaultCause.code, FaultCause.value]
    | regOutOfRange r => simp [State.faultRegsOk, FaultCause.code]
    | unwrittenRegisterRead r =>
      have hpolicy : s.params.regResetPolicy = .unwritten := hf
      simp [State.faultRegsOk, FaultCause.code, hp, hpolicy]
    | modByZero r =>
      have hmod : s.params.modSemantics = .modulo := hf
      simp [State.faultRegsOk, FaultCause.code, hp, hmod]
  · simp [State.faultRegsOk, FaultCause.code]

end

/-! ### Reset -/

theorem inv_resetWith (p : Params) : (State.resetWith p).inv = true := rfl

/-- Settles O2: each conjunct computes on the reset values. -/
theorem resetStateMeetsInvariant : Obligations.ResetStateMeetsInvariant := ⟨inv_resetWith _, inv_resetWith⟩

/-! ### A step -/

section
variable {s t : State}

/-- Neither the host's acts to come nor the latches are in the invariant. -/
theorem inv_afterInput (s : State) : s.afterInput.inv = s.inv := rfl

theorem inv_fetched (s : State) : s.fetched.inv = s.inv := rfl

/-- The invariant in IDLE says nothing of `load_err`, and a start leaves IDLE only without it. -/
theorem inv_idleStep {e : HostInput} (hi : s.inv = true) (hc : s.ctrl = .idle) (he : e ≠ .rst) :
    (idleStep e s).inv = true := by
  obtain ⟨hmem, hfl, hvalid, hregs, hidle⟩ := inv_iff.mp hi
  cases e with
  | quiet => exact hi
  | rst => exact absurd rfl he
  | load addr data =>
    by_cases hlt : addr.toNat < memSize
    · rw [idleStep_load_of_lt hlt]
      exact inv_iff.mpr ⟨Memory.wf_write data hmem hlt, hfl, hvalid, hregs, hidle⟩
    · rw [idleStep_load_of_le (Nat.not_lt.mp hlt)]
      rw [State.idleOk, if_pos hc] at hidle
      exact inv_iff.mpr ⟨hmem, hfl, hvalid, hregs, (if_pos hc).trans hidle⟩
  | start =>
    cases hl : s.loadErr with
    | true => rwa [idleStep_start_of_loadErr hl]
    | false =>
      rw [idleStep_start_of_ok hl]
      have hkept : ({ s with ctrl := .running } : State).faultRegsOk = s.faultRegsOk :=
        faultRegsOk_of_kept (by rw [hc]; decide) (by simp) ⟨rfl, rfl, rfl, rfl⟩
      refine inv_iff.mpr ⟨hmem, hfl, hvalid, hkept.trans hregs, ?_⟩
      rw [idleOk_of_not_idle (by simp), hl, Bool.not_false]

theorem loadErr_of_running (hi : s.inv = true) (hc : s.ctrl = .running) : s.loadErr = false := by
  obtain ⟨_, _, _, _, hidle⟩ := inv_iff.mp hi
  rwa [idleOk_of_not_idle (by rw [hc]; decide), Bool.not_eq_true'] at hidle

/-- A fault taken in a state that keeps the invariant's other parts: the fault registers record it, and IDLE is left. -/
theorem inv_takeFault {f : FaultCause} {u : State} (op : Byte) (hf : ProgramFault s f) (hp : u.params = s.params)
    (hmem : u.mem.wf = true) (hfl : u.flLegal = true) (hvalid : u.isValid spIndex = true) (hl : u.loadErr = false) :
    (takeFault f op u).inv = true := by
  refine inv_iff.mpr ⟨hmem, hfl, hvalid, faultRegsOk_takeFault op hf hp, ?_⟩
  rw [idleOk_of_not_idle (by rw [takeFault_ctrl]; decide), takeFault_loadErr, hl, Bool.not_false]

theorem wf_of_exec {i : Instr} (h : exec i s = .next t) (hmem : s.mem.wf = true) : t.mem.wf = true := by
  rcases exec_mem h with hm | ⟨_, hlt, v, hm⟩
  · rwa [hm]
  · rw [hm]; exact Memory.wf_write v hmem hlt

theorem inv_of_completes {i : Instr} (hi : s.inv = true) (hc : s.ctrl = .running) (hmem : t.mem.wf = true)
    (h : Completes i s t) : t.inv = true := by
  obtain ⟨_, hfl, hvalid, hregs, _⟩ := inv_iff.mp hi
  obtain ⟨⟨_, hload, _⟩, hkept, hctrl⟩ := completes_control h
  have hnot : t.ctrl ≠ .faulted ∧ t.ctrl ≠ .idle := by
    rw [hctrl, hc]; split <;> decide
  have hfl' : t.flLegal = true := by
    rcases completes_fl h with heq | ⟨a, b, _, heq⟩
    · rw [flLegal_of_eq heq, hfl]
    · exact flLegal_cmpFlags _ _ heq
  refine inv_iff.mpr ⟨hmem, hfl', completes_isValid h hvalid, ?_, ?_⟩
  · rw [faultRegsOk_of_kept (by rw [hc]; decide) hnot.1 hkept, hregs]
  · rw [idleOk_of_not_idle hnot.2, hload, loadErr_of_running hi hc, Bool.not_false]

theorem inv_of_exec {i : Instr} (hi : s.inv = true) (hc : s.ctrl = .running) (h : exec i s = .next t) :
    t.inv = true := by
  obtain ⟨hmem, hfl, hvalid, _, _⟩ := inv_iff.mp hi
  have hwf := wf_of_exec h hmem
  rcases exec_cases h with ⟨f, u, rfl, hf, hu⟩ | hcompl
  · obtain ⟨⟨hp, hload, _⟩, _, _, _, heq, _⟩ := faultsIn_control hu
    exact inv_takeFault s.ir (.inl hf) hp hwf ((flLegal_of_eq heq).trans hfl) (faultsIn_isValid hu hvalid)
      (hload.trans (loadErr_of_running hi hc))
  · exact inv_of_completes hi hc hwf hcompl

/-- A fault of the fetch or of decode is taken in `s` but for its latches and the host's acts. -/
theorem inv_of_running (hi : s.inv = true) (hr : s.input ≠ .rst) (hc : s.ctrl = .running) (h : step s = .next t) :
    t.inv = true := by
  rcases running_cases hr hc h with ⟨i, _, he⟩ | ⟨f, op, u, _, hf, rfl, _, hu⟩
  · exact inv_of_exec (s := s.fetched) hi hc he
  · obtain ⟨hmem, hfl, hvalid, _, _⟩ := inv_iff.mp hi
    have hprog : ProgramFault s f := by
      rcases hf with rfl | ho
      · exact .inl rfl
      · exact .inr ho
    rw [hu]
    exact inv_takeFault op hprog rfl hmem hfl hvalid (loadErr_of_running hi hc)

end

/-- Settles O3: each kind of step of `step_cases` keeps the invariant. -/
theorem stepKeepsInvariant : Obligations.StepKeepsInvariant := by
  intro s t hi h
  rcases step_cases s with ⟨_, hs⟩ | ⟨hr, hc, hs⟩ | ⟨hr, hc, _⟩ | ⟨_, _, hs⟩
  · rw [hs] at h; cases h
    exact inv_resetWith s.params
  · rw [hs] at h; cases h
    exact inv_idleStep (s := s.afterInput) hi hc hr
  · exact inv_of_running hi hr hc h
  · rw [hs] at h; cases h
    exact hi

end Sys2Proof.Machine
end

section
/-! SUPPORT. Encoding and decoding (30_encoding.md R80 to R90): decode inverts encode, the bytes past an instruction's length,
and what the opcode values of R85 say (R86, R88). -/

namespace Sys2Proof

/-! ### Operand bytes -/

/-- Whatever follows them, the operand bytes of an instruction give it back to its mnemonic. -/
theorem withOperands_of_operandBytes {i : Instr} {rest tail : List Byte} {a b : Byte}
    (h : i.operandBytes ++ rest = a :: b :: tail) : i.mnemonic.withOperands a b = i := by
  cases i with
  | hlt | ret => rfl
  | push _ | pop _ | prn _ | call _ | jmp _ | jeq _ | jne _ | not _ => cases h; rfl
  | ldi _ _ | add _ _ | sub _ _ | mul _ _ | mod _ _ | cmp _ _ | and _ _ | or _ _ | xor _ _ | shl _ _ | shr _ _ =>
    cases h; rfl

/-- Settles O5: the opcode byte selects the mnemonic, the operand bytes do the rest. -/
theorem decodeInvertsEncode : Obligations.DecodeInvertsEncode := by
  intro map hmap set i hwf rest op a b tail h
  obtain ⟨rfl, hbytes⟩ := List.cons.inj h
  rw [decodeWith_opcode hmap hwf, withOperands_of_operandBytes hbytes]

/-! ### The bytes past an instruction's length -/

theorem withOperands_of_length_le_two {m : Mnemonic} (h : m.length ≤ 2) (a b b' : Byte) :
    m.withOperands a b = m.withOperands a b' := by
  cases m with
  | hlt | ret | push | pop | prn | call | jmp | jeq | jne | not => rfl
  | ldi | add | sub | mul | mod | cmp | and | or | xor | shl | shr => exact absurd h (by decide)

theorem withOperands_of_length_eq_one {m : Mnemonic} (h : m.length = 1) (a b a' b' : Byte) :
    m.withOperands a b = m.withOperands a' b' := by
  cases m with
  | hlt | ret => rfl
  | _ => exact absurd h (by decide)

/-- An instruction is decoded where its mnemonic is selected. -/
theorem decode_eq_instr_iff {set : AluDecodeSet} {op a b : Byte} {i : Instr} :
    decode set op a b = .instr i ↔ ∃ m, selectWith opcodeMap set op = some m ∧ m.withOperands a b = i := by
  unfold decode decodeWith
  cases selectWith opcodeMap set op <;> simp

/-- Settles O9: the selection reads the opcode byte alone, and a mnemonic the bytes of its length. -/
theorem bytesPastLengthAreIgnored : Obligations.BytesPastLengthAreIgnored := by
  intro set op a b i h
  obtain ⟨m, hm, rfl⟩ := decode_eq_instr_iff.mp h
  rw [Machine.mnemonic_withOperands]
  exact ⟨fun hlen b' => decode_eq_instr_iff.mpr ⟨m, hm, withOperands_of_length_le_two hlen a b' b⟩,
    fun hlen a' b' => decode_eq_instr_iff.mpr ⟨m, hm, withOperands_of_length_eq_one hlen a' b' a b⟩⟩

/-! ### The opcode values of R85 -/

/-- Settles O7: the layout, mnemonic by mnemonic. -/
theorem opcodeLayout : Obligations.OpcodeLayout :=
  ⟨opcodeMap_injective, fun m => ⟨Laws.EncodingShape.length_layout m, by cases m <;> decide, by cases m <;> decide⟩⟩

/-- Settles O10: each opcode byte is one of R85. -/
theorem sampleWordsDecode : Obligations.SampleWordsDecode := ⟨rfl, rfl, rfl, rfl, rfl, rfl, rfl⟩

/-- The opcode bytes a setting decodes, as numbers. -/
def legalOpcodes (set : AluDecodeSet) : List Nat :=
  (Mnemonic.all.filter (decodedUnder set)).map (fun m => (opcodeMap m).toNat)

theorem nodup_legalOpcodes (set : AluDecodeSet) : (legalOpcodes set).Nodup := by
  have hall : Mnemonic.all.Nodup := by decide
  exact (hall.filter _).map (fun _ _ h => opcodeMap_injective (BitVec.eq_of_toNat_eq h))

theorem lt_of_mem_legalOpcodes {set : AluDecodeSet} {n : Nat} (h : n ∈ legalOpcodes set) : n < 256 := by
  obtain ⟨m, _, rfl⟩ := List.mem_map.mp h
  exact (opcodeMap m).isLt

theorem decode_eq_unknown_iff {set : AluDecodeSet} {op a b : Byte} :
    decode set op a b = .unknown op ↔ op.toNat ∉ legalOpcodes set := by
  have hnone : decode set op a b = .unknown op ↔ selectWith opcodeMap set op = none := by
    unfold decode decodeWith
    cases selectWith opcodeMap set op <;> simp
  simp [hnone, selectWith_eq_none_iff, legalOpcodes, Mnemonic.mem_all, BitVec.toNat_inj]

/-- The bytes of a range that are not in a list of its elements are those the list leaves. -/
theorem length_filter_not_mem_range {n : Nat} {l : List Nat} (hl : l.Nodup) (hlt : ∀ k ∈ l, k < n) :
    ((List.range n).filter (fun k => decide (k ∉ l))).length + l.length = n := by
  have hperm : ((List.range n).filter (fun k => decide (k ∈ l))).Perm l := by
    rw [List.perm_ext_iff_of_nodup (List.nodup_range.filter _) hl]
    intro k
    simpa using hlt k
  have hsplit := List.length_eq_length_filter_add (l := List.range n) (fun k => decide (k ∈ l))
  rw [hperm.length_eq, List.length_range] at hsplit
  simp only [decide_not]
  omega

/-- Every opcode byte is legal or unknown. -/
theorem illegal_add_legal (set : AluDecodeSet) :
    ((List.range 256).filter (fun n => decide (decode set (BitVec.ofNat 8 n) 0 0 = .unknown (BitVec.ofNat 8 n)))).length
      + (legalOpcodes set).length = 256 := by
  rw [List.filter_congr (q := fun k => decide (k ∉ legalOpcodes set))]
  · exact length_filter_not_mem_range (nodup_legalOpcodes set) (fun _ => lt_of_mem_legalOpcodes)
  · intro n hn
    rw [decide_eq_decide, decode_eq_unknown_iff, BitVec.toNat_ofNat, Nat.mod_eq_of_lt (List.mem_range.mp hn)]

/-- Settles O8: 13 of the 256 bytes are legal under `Core`, 21 under `Extended`. -/
theorem illegalOpcodeCounts : Obligations.IllegalOpcodeCounts := by
  have hcore : (legalOpcodes .core).length = 13 := rfl
  have hextended : (legalOpcodes .extended).length = 21 := rfl
  exact ⟨by have := illegal_add_legal .core; omega, by have := illegal_add_legal .extended; omega, rfl, rfl⟩

end Sys2Proof
end

section
/-! SUPPORT. What every step answers (40_control_unit.md R100 to R105, 60_exceptions.md R242). -/

namespace Sys2Proof.Machine

/-- A step in RUNNING takes the fault it raises, or an instruction completes. -/
theorem step_next (s : State) : ∃ t, step s = .next t := by
  rcases step_cases s with ⟨_, hs⟩ | ⟨_, _, hs⟩ | ⟨hr, hc, _⟩ | ⟨_, _, hs⟩
  · exact ⟨_, hs⟩
  · exact ⟨_, hs⟩
  · rcases running_raises_or_completes hr hc with ⟨f, op, u, _, hs, _⟩ | ⟨_, i, t, hs, _⟩
    · exact ⟨_, hs⟩
    · exact ⟨_, hs⟩
  · exact ⟨_, hs⟩

/-- Settles O4: by the kinds of step of `step_cases`. -/
theorem stepAlwaysAnswersNextState : Obligations.StepAlwaysAnswersNextState := step_next

/-- Settles O13: the premises say that the step executes `i`, and `s.fetched` is the state written out. -/
theorem stepExecutesDecodedInstruction : Obligations.StepExecutesDecodedInstruction :=
  fun _ _ hr hc hpc hd => step_of_executes ⟨⟨hr, hc, hpc⟩, hd⟩

/-- Settles O17: an act of the host and a fault leave both fields, an instruction by `exec_restKept`. -/
theorem stepKeepsParametersAndReadsOneInput : Obligations.StepKeepsParametersAndReadsOneInput := by
  intro s t h
  rcases step_cases s with ⟨_, hs⟩ | ⟨hr, _, hs⟩ | ⟨hr, hc, _⟩ | ⟨_, _, hs⟩
  · rw [hs] at h; cases h
    exact ⟨rfl, rfl⟩
  · rw [hs] at h; cases h
    obtain ⟨_, _, _, he⟩ := idleStep_writes s.afterInput hr
    rw [he]
    exact ⟨rfl, rfl⟩
  · rcases running_cases hr hc h with ⟨i, _, he⟩ | ⟨f, op, u, _, _, rfl, _, hu⟩
    · obtain ⟨hp, _, hin, _⟩ := exec_restKept he
      exact ⟨hp, hin⟩
    · rw [hu]
      exact ⟨rfl, rfl⟩
  · rw [hs] at h; cases h
    exact ⟨rfl, rfl⟩

end Sys2Proof.Machine
end

section
/-! SUPPORT. A table word placed at the program counter (30_encoding.md R66, 40_control_unit.md R102; log entries 6 and 10). -/

namespace Sys2Proof.Machine

/-! ### The window -/

/-- The three bytes of a window stored in memory that has cells for them are read back. -/
theorem read_writeWindow {m : Memory} {addr : Nat} (op a b : Byte) (hm : m.wf = true) (h : addr + 2 < memSize) :
    (m.writeWindow addr op a b).read addr = op ∧ (m.writeWindow addr op a b).read (addr + 1) = a ∧
      (m.writeWindow addr op a b).read (addr + 2) = b := by
  have h1 : (m.write addr op).wf = true := Memory.wf_write op hm (by omega)
  have h2 : ((m.write addr op).write (addr + 1) a).wf = true := Memory.wf_write a h1 (by omega)
  unfold Memory.writeWindow
  refine ⟨?_, ?_, Memory.read_write_same b h2⟩
  · rw [Memory.read_write_other _ b (by omega), Memory.read_write_other _ a (by omega), Memory.read_write_same op hm]
  · rw [Memory.read_write_other _ b (by omega), Memory.read_write_same a h1]

theorem fetchPlace_le (s : State) : s.fetchPlace.toNat ≤ 252 := by
  unfold State.fetchPlace State.windowInMemory inMemory memSize
  split
  · have hlt := of_decide_eq_true ‹_›
    omega
  · decide

/-! ### The settings -/

theorem decodedUnder_extended (m : Mnemonic) : decodedUnder .extended m = true := by cases m <;> rfl

/-- What a setting selects, `Extended` selects as well, since no two mnemonics share an opcode. -/
theorem selectWith_extended {set : AluDecodeSet} {op : Byte} {m : Mnemonic} (h : selectWith opcodeMap set op = some m) :
    selectWith opcodeMap .extended op = some m := by
  obtain ⟨_, rfl⟩ := selectWith_sound h
  exact selectWith_eq_some opcodeMap_injective (decodedUnder_extended m)

/-- The settings chosen for a word decode it as `Extended` does. -/
theorem selectWith_paramsFor {op : Byte} {m : Mnemonic} (p : Params) (h : selectWith opcodeMap .extended op = some m) :
    selectWith opcodeMap (paramsFor p op).aluDecodeSet op = some m := by
  unfold paramsFor
  cases hp : selectWith opcodeMap p.aluDecodeSet op with
  | none => simp only [h]
  | some m' =>
    rw [selectWith_extended hp] at h
    exact hp.trans h

theorem decode_paramsFor {op a b : Byte} {i : Instr} (p : Params) (h : decode .extended op a b = .instr i) :
    decode (paramsFor p op).aluDecodeSet op a b = .instr i := by
  obtain ⟨m, hm, hi⟩ := decode_eq_instr_iff.mp h
  exact decode_eq_instr_iff.mpr ⟨m, selectWith_paramsFor p hm, hi⟩

theorem decode_of_decodeTableWord {nbits w : Nat} {i : Instr} (h : decodeTableWord nbits w = some i) :
    decode .extended (wordByte nbits w 0) (wordByte nbits w 1) (wordByte nbits w 2) = .instr i := by
  unfold decodeTableWord at h
  split at h
  · cases h; assumption
  · cases h

theorem fetchByte_withFetchWord {s : State} (nbits w : Nat) (hm : s.mem.wf = true) :
    (s.withFetchWord nbits w).fetchByte 0 = wordByte nbits w 0 ∧
      (s.withFetchWord nbits w).fetchByte 1 = wordByte nbits w 1 ∧
      (s.withFetchWord nbits w).fetchByte 2 = wordByte nbits w 2 :=
  read_writeWindow _ _ _ hm (by have := fetchPlace_le s; simp only [memSize]; omega)

/-- Settles O14: the window is read back as placed, and decoded as the table's word. -/
theorem placedWordRunsNext : Obligations.PlacedWordRunsNext := by
  intro s nbits w i hm hw
  obtain ⟨hop, ha, hb⟩ := fetchByte_withFetchWord nbits w hm
  refine step_of_executes ⟨⟨nofun, rfl, fetchPlace_le s⟩, ?_⟩
  rw [State.decoded, hop, ha, hb]
  exact decode_paramsFor s.params (decode_of_decodeTableWord hw)

end Sys2Proof.Machine
end

section
/-! SUPPORT. The operand checks of the two-operand ALU instructions, and one register as both operands (41_alu.md R130, R143,
R244). -/

namespace Sys2Proof.Machine

/-- Every two-operand operation but MOD begins with the read of its operands, so it raises what that raises. -/
theorem alu_of_readPair_error {m : Mnemonic} (hm : m ∈ [Mnemonic.add, .sub, .mul, .cmp, .and, .or, .xor, .shl, .shr])
    {a b : Byte} {s : State} {f : FaultCause} (h : readPair a b s = .error f s) :
    alu (opcodeMap m) a b s = .error f s := by
  have hbinary (g : Byte → Byte → Byte) : aluBinary g a b s = .error f s := by rw [aluBinary, bind_error h]
  cases m with
  | add | sub | mul | and | or | xor => exact hbinary _
  | shl => exact hbinary (fun d s => d <<< s.toNat)
  | shr => exact hbinary (fun d s => d >>> s.toNat)
  | cmp => rw [alu_cmp, aluCmp, bind_error h]
  | hlt | ret | push | pop | prn | call | jmp | jeq | jne | not | ldi | mod => exact absurd hm (by decide)

/-- Settles O25: the read of the operands raises before anything is written, the left operand's fault first. -/
theorem binaryAluChecksLeftOperandFirst : Obligations.BinaryAluChecksLeftOperandFirst := by
  intro m hm a b s f
  have hstmts : statementsOf (m.withOperands a b) = aluInstr m a b :=
    statementsOf_withOperands ((show _ ⊆ aluOperations by decide) hm) (by rintro rfl; exact absurd hm (by decide)) a b
  have hexec (h : readPair a b s = .error f s) : exec (m.withOperands a b) s = .next (takeFault f s.ir s) :=
    exec_of_alu_error hstmts (alu_of_readPair_error hm h)
  exact ⟨fun ha => hexec (readPair_of_left ha), fun ha hb => hexec (readPair_of_right ha hb)⟩

/-- Settles O36: each operation of a value with itself. -/
theorem sameRegisterOperands : Obligations.SameRegisterOperands := by
  intro a s ha
  have hexec {i : Instr} {m : Mnemonic} {g : Byte → Byte → Byte} {v : Byte} (hi : statementsOf i = aluInstr m a a)
      (hm : alu (opcodeMap m) a a = aluBinary g a a) (hv : g (s.x a) (s.x a) = v) :
      exec i s = .next { s.setX a v with pc := s.pc + 3 } := hv ▸ (alu_exec_of_binary hi hm ha ha).2
  obtain ⟨hcmp, _⟩ := cmpResult
  obtain ⟨fl, heq, _, _, _, hfl⟩ := hcmp a a s ha ha
  refine ⟨hexec rfl (alu_sub a a) (BitVec.sub_self _), hexec rfl (alu_xor a a) BitVec.xor_self,
    hexec rfl (alu_and a a) BitVec.and_self, hexec rfl (alu_or a a) BitVec.or_self,
    hexec rfl (alu_add a a) BitVec.two_mul.symm, ?_⟩
  rw [hfl, heq rfl]

end Sys2Proof.Machine
end

section
/-! SUPPORT. A push and the load that undoes it (43_stack.md R192, 44_control_transfer.md R202). -/

namespace Sys2Proof.Machine

section
variable {s : State}

theorem pushAddr_ne_255 (h0 : s.sp ≠ 0) : s.sp - 1 ≠ 255 := by
  intro h
  have hlt := pushAddr_lt h0
  rw [h] at hlt
  exact absurd hlt (by decide)

theorem readFault_spDown_of_none {r : Byte} (h : s.readFault r = none) : s.spDown.readFault r = none :=
  readFault_setX_of_none spIndex _ h

end

/-- Settles O47: PUSH completes one below the stack pointer, and POP from the state it leaves. -/
theorem pushThenPopCopiesRegister : Obligations.PushThenPopCopiesRegister := by
  intro r r2 s hr hr2 hlt hread h7 h0 hwf
  have hx : s.spDown.x r = s.x r := x_setX_other s _ hr
  have hpush := exec_push_of_sp_ne_zero h7 (readFault_spDown_of_none hread) h0
  rw [hx] at hpush
  generalize ht : ({ s.spDown with mem := s.mem.write s.pushAddr (s.x r), pc := s.pc + 2 } : State) = t at hpush
  have hsp : t.sp = s.sp - 1 := by rw [← ht]; exact spDown_sp s
  have ht7 : t.readFault spIndex = none := by rw [← ht]; exact readFault_spDown_sp s
  have hcell : t.mem.read s.pushAddr = s.x r := by rw [← ht]; exact Memory.read_write_same _ hwf
  have haddr : t.popAddr = s.pushAddr := by rw [State.popAddr, hsp, State.pushAddr]
  generalize hv : t.setX r2 (t.mem.read t.popAddr) = v
  have hvsp : v.sp = s.sp - 1 := by rw [← hv, ← hsp]; exact x_setX_other t _ (Ne.symm hr2)
  refine ⟨t, _, hpush, exec_pop_of_lt ht7 (hsp ▸ pushAddr_ne_255 h0) hlt hv.symm, ?_, ?_, ?_, ?_⟩
  · show (v.setX spIndex (v.sp + 1)).x r2 = s.x r
    rw [x_setX_other (i := spIndex) v _ hr2, ← hv, x_setX_same t r2 _ hlt, haddr, hcell]
  · show (v.setX spIndex (v.sp + 1)).sp = s.sp
    rw [sp_setX_sp, hvsp, BitVec.sub_add_cancel]
  · show (v.setX spIndex (v.sp + 1)).mem.read s.pushAddr = s.x r
    rw [setX_mem, ← hv, setX_mem, hcell]
  · show t.pc + 2 = s.pc + 4
    rw [← ht, BitVec.add_assoc]
    rfl

/-- Settles O48: CALL leaves the return address at the stack pointer, where RET finds it. -/
theorem callThenRetReturns : Obligations.CallThenRetReturns := by
  intro a s t u h7 ha h0 hwf hcall hu7 hux hmem
  have ht : t = { s.returnPushed with pc := s.returnPushed.x a } := by
    rw [exec_of_jumpToReg_of_none (i := .call a) (callInstr_of_sp_ne_zero h7 h0) (readFault_spDown_of_none ha)] at hcall
    cases hcall; rfl
  have hsp : t.sp = s.sp - 1 := by rw [ht]; exact spDown_sp s
  have husp : u.sp = s.sp - 1 := hux.trans hsp
  have hcell : t.mem.read s.pushAddr = s.pc + 2 := by rw [ht]; exact Memory.read_write_same _ hwf
  have haddr : u.popAddr = s.pushAddr := by rw [State.popAddr, husp, State.pushAddr]
  have hkept : u.mem.read s.pushAddr = t.mem.read s.pushAddr := by rw [State.pushAddr, ← hsp]; exact hmem
  refine ⟨_, exec_ret_of_sp_ne hu7 (husp ▸ pushAddr_ne_255 h0), ?_, ?_⟩
  · show u.mem.read u.popAddr = s.pc + 2
    rw [haddr, hkept, hcell]
  · show (u.setX spIndex (u.sp + 1)).sp = s.sp
    rw [sp_setX_sp, husp, BitVec.sub_add_cancel]

end Sys2Proof.Machine
end

section
/-! SUPPORT. The register primitives (10_state.md R31 to R33), and what fault entry records (60_exceptions.md R241). -/

namespace Sys2Proof.Machine

theorem readFault_of_policy_zero {s : State} {i : Byte} (hi : i.toNat < 8) (h : s.params.regResetPolicy = .zero) :
    s.readFault i = none := by
  simp [State.readFault, Nat.not_le.mpr hi, h]

theorem readFault_of_unwritten {s : State} {i : Byte} (hi : i.toNat < 8) (h : s.params.regResetPolicy = .unwritten)
    (hv : s.isValid i = false) : s.readFault i = some (.unwrittenRegisterRead i) := by
  simp [State.readFault, Nat.not_le.mpr hi, h, hv]

theorem readFault_of_le {s : State} {i : Byte} (hi : 8 ≤ i.toNat) : s.readFault i = some (.regOutOfRange i) := by
  simp [State.readFault, hi]

/-- Settles O57: a write by `setX`, a read by `readFault`. -/
theorem registerAccess : Obligations.RegisterAccess := by
  intro s i v
  constructor
  · intro hi
    exact ⟨writeReg_of_lt hi, x_setX_same s i v hi, readFault_of_isValid hi (isValid_setX_same s i v hi),
      fun _ hr => regKept_setX s v hr, fun hp => readReg_of_none (readFault_of_policy_zero hi hp),
      fun hv => readReg_of_none (readFault_of_isValid hi hv),
      fun hp hv => readReg_of_some (readFault_of_unwritten hi hp hv)⟩
  · intro hi
    exact ⟨writeReg_of_le hi, readReg_of_some (readFault_of_le hi)⟩

theorem toNat_zeroExtend_nine (b : Byte) : (b.zeroExtend 9).toNat = b.toNat := by
  rw [BitVec.toNat_setWidth]
  exact Nat.mod_eq_of_lt (by have := b.isLt; omega)

/-- Settles O22: `takeFault` records the cause's code and value, and nine bits hold every byte. -/
theorem faultCodesAndValues : Obligations.FaultCodesAndValues := by
  intro s op b addr
  have hb := toNat_zeroExtend_nine b
  have haddr (h : addr < 512) : (BitVec.ofNat 9 addr).toNat = addr := (BitVec.toNat_ofNat ..).trans (Nat.mod_eq_of_lt h)
  exact ⟨rfl, hb, rfl, hb, rfl, haddr, rfl, hb, rfl, hb, rfl, hb⟩

end Sys2Proof.Machine
end

section
/-! SUPPORT. The host's acts and the inspection ports, by STATE (40_control_unit.md R111, R113). -/

namespace Sys2Proof.Machine

section
variable {s : State} {e : HostInput} {rest : List HostInput} {addr : Byte}

/-! ### The act taken by a step -/

theorem input_of_cons (h : s.inputs = e :: rest) : s.input = e := by rw [State.input, h, List.headD_cons]

theorem afterInput_of_cons (h : s.inputs = e :: rest) : s.afterInput = { s with inputs := rest } := by
  rw [State.afterInput, h, List.tail_cons]

theorem step_of_idle_cons (h : s.inputs = e :: rest) (hr : e ≠ .rst) (hc : s.ctrl = .idle) :
    step s = .next (idleStep e { s with inputs := rest }) := by
  rw [step_of_idle (by rwa [input_of_cons h]) hc, input_of_cons h, afterInput_of_cons h]

/-- In RUNNING an act of the host other than reset is taken and does nothing. -/
theorem step_of_running_cons (h : s.inputs = e :: rest) (hr : e ≠ .rst) (hc : s.ctrl = .running) :
    step s = step { s with inputs := .quiet :: rest } := by
  rw [step_of_running (by rwa [input_of_cons h]) hc, afterInput_of_cons h]
  exact (step_of_running (s := { s with inputs := .quiet :: rest }) nofun hc).symm

theorem step_of_stopped_cons (h : s.inputs = e :: rest) (hr : e ≠ .rst) (hc : s.ctrl = .halted ∨ s.ctrl = .faulted) :
    step s = .next { s with inputs := rest } := by
  rw [step_of_stopped (by rwa [input_of_cons h]) hc, afterInput_of_cons h]

/-! ### The inspection ports -/

theorem dbgValid_iff : dbgValid s = true ↔ s.ctrl ≠ .running := bne_iff_ne

theorem dbgValid_of_running (hc : s.ctrl = .running) : dbgValid s = false := by rw [dbgValid, hc]; rfl

theorem dbgMem_of_valid (hv : dbgValid s = true) :
    dbgMem addr s = some (if addr.toNat < memSize then s.mem.read addr.toNat else 0) := by
  simp [dbgMem, hv, inMemory]

theorem dbgReg_of_readFault_none {sel : BitVec 3} (hv : dbgValid s = true)
    (h : s.readFault (sel.zeroExtend 8) = none) : dbgReg sel s = some (s.x (sel.zeroExtend 8)) := by
  rw [dbgReg, hv, (readable_iff_readFault s _).mpr h, Bool.and_self, if_pos rfl]

end

/-- Settles O55: the load and the start by what `idleStep` makes of them, the ports by `dbgValid`. -/
theorem hostAccessByState : Obligations.HostAccessByState := by
  intro s addr data rest
  refine ⟨fun h => ⟨fun hc hlt => ?_, fun hc h255 => ?_⟩, fun h => ⟨fun hc hl => ?_, fun hc hl => ?_⟩, fun h => ?_,
    fun hc => ?_, fun hc => ?_⟩
  · rw [step_of_idle_cons h nofun hc, idleStep_load_of_lt hlt]
  · rw [step_of_idle_cons h nofun hc, idleStep_load_of_le h255.ge]
  · rw [step_of_idle_cons h nofun hc, idleStep_start_of_ok (s := { s with inputs := rest }) hl]
  · rw [step_of_idle_cons h nofun hc, idleStep_start_of_loadErr (s := { s with inputs := rest }) hl]
  · rcases h with h | h
    · exact ⟨step_of_running_cons h nofun, step_of_stopped_cons h nofun⟩
    · exact ⟨step_of_running_cons h nofun, step_of_stopped_cons h nofun⟩
  · have hv : dbgValid s = true := dbgValid_iff.mpr hc
    refine ⟨if_pos hv, if_pos hv, fun (hlt : addr.toNat < memSize) => ?_, fun (h255 : addr.toNat = memSize) => ?_,
      fun sel => dbgReg_of_readFault_none hv⟩
    · rw [dbgMem_of_valid hv, if_pos hlt]
    · rw [dbgMem_of_valid hv, if_neg h255.not_lt]
  · have hv := dbgValid_of_running hc
    simp [dbgPc, dbgFl, dbgMem, dbgReg, hv]

end Sys2Proof.Machine
end

section
/-! SUPPORT. What a line of the loader's input gives (30_encoding.md R94; log entry 9). -/

namespace Sys2Proof.Machine

/-! ### Characters -/

theorem ne_commentMarker_of_isBlank {c : Char} (h : isBlank c = true) : c ≠ commentMarker := by
  rintro rfl; exact absurd h (by decide)

theorem commentMarker_not_mem_of_blank {line : List Char} (h : line.all isBlank = true) : commentMarker ∉ line :=
  fun hm => ne_commentMarker_of_isBlank (List.all_eq_true.mp h _ hm) rfl

/-- The token of a list of binary digits. -/
abbrev digits (bits : List Bool) : List Char := bits.map (fun d => if d then '1' else '0')

theorem mem_digits {bits : List Bool} {c : Char} (h : c ∈ digits bits) : c = '0' ∨ c = '1' := by
  obtain ⟨d, _, rfl⟩ := List.mem_map.mp h
  cases d
  · exact .inl rfl
  · exact .inr rfl

theorem isBlank_of_mem_digits {bits : List Bool} {c : Char} (h : c ∈ digits bits) : isBlank c = false := by
  rcases mem_digits h with rfl | rfl <;> rfl

theorem commentMarker_not_mem_digits (bits : List Bool) : commentMarker ∉ digits bits := fun h => by
  rcases mem_digits h with h | h <;> exact absurd h (by decide)

/-! ### A line by its token -/

/-- The token of a line: without the comment, then without the white space at its ends. -/
abbrev tokenOf (line : List Char) : List Char := stripBlanks (stripComment line)

section
variable {line token pre post tail : List Char}

theorem parseLine_of_nil (h : tokenOf line = []) : parseLine line = .blank := by
  rw [tokenOf] at h
  rw [parseLine, h, List.isEmpty_nil, if_pos rfl]

theorem parseLine_of_some {n : Nat} (h : tokenOf line = token) (hne : token ≠ []) (hv : binaryValue 0 token = some n) :
    parseLine line = if n < 256 then .byte (BitVec.ofNat 8 n) else .malformed := by
  rw [tokenOf] at h
  rw [parseLine, h, if_neg (by simpa using hne), hv]

theorem parseLine_of_none (h : tokenOf line = token) (hne : token ≠ []) (hv : binaryValue 0 token = none) :
    parseLine line = .malformed := by
  rw [tokenOf] at h
  rw [parseLine, h, if_neg (by simpa using hne), hv]

/-- A comment is no part of the token. -/
theorem tokenOf_append_comment (h : commentMarker ∉ line) (ht : tail = [] ∨ ∃ comment, tail = '#' :: comment) :
    tokenOf (line ++ tail) = stripBlanks line := by
  rcases ht with rfl | ⟨comment, rfl⟩
  · rw [tokenOf, List.append_nil, stripComment_of_not_mem h]
  · exact congrArg stripBlanks (stripComment_append comment h)

theorem tokenOf_surround (hpre : pre.all isBlank = true) (hpost : post.all isBlank = true)
    (htoken : ∀ c ∈ token, isBlank c = false) (hm : commentMarker ∉ token)
    (ht : tail = [] ∨ ∃ comment, tail = '#' :: comment) : tokenOf (pre ++ token ++ post ++ tail) = token := by
  rw [tokenOf_append_comment _ ht, stripBlanks_surround hpre hpost htoken]
  simp [commentMarker_not_mem_of_blank hpre, commentMarker_not_mem_of_blank hpost, hm]

end

/-! ### Eight digits -/

/-- The low `n` bits of a number, most significant first, read as digits after those of `acc`. -/
theorem foldl_testBit (v n acc : Nat) :
    ((List.range n).map (fun k => v.testBit (n - 1 - k))).foldl (fun n d => 2 * n + d.toNat) acc
      = acc * 2 ^ n + v % 2 ^ n := by
  induction n generalizing acc with
  | zero => simp [Nat.mod_one]
  | succ n ih =>
    have htail : ((List.range n).map Nat.succ).map (fun k => v.testBit (n + 1 - 1 - k))
        = (List.range n).map (fun k => v.testBit (n - 1 - k)) := by
      rw [List.map_map]
      refine List.map_congr_left fun k _ => ?_
      rw [Function.comp_apply, show n + 1 - 1 - k.succ = n - 1 - k by omega]
    rw [List.range_succ_eq_map, List.map_cons, List.foldl_cons, htail, ih, Nat.mod_pow_succ, Nat.toNat_testBit]
    simp only [Nat.add_sub_cancel, Nat.sub_zero]
    ring

/-- The bits of a byte, most significant first, are the digits of its value. -/
theorem foldl_getLsbD (v : Byte) :
    ((List.range 8).map (fun k => v.getLsbD (7 - k))).foldl (fun n d => 2 * n + d.toNat) 0 = v.toNat := by
  have h := foldl_testBit v.toNat 8 0
  rwa [Nat.zero_mul, Nat.zero_add, Nat.mod_eq_of_lt v.isLt] at h

/-- Settles O56: the line is its token, and a token of digits is read by `binaryValue_digits`. -/
theorem loaderLineGivesItsByte : Obligations.LoaderLineGivesItsByte := by
  intro pre post tail hpre hpost ht
  have hdigits (bits : List Bool) (h : bits ≠ []) : parseLine (pre ++ digits bits ++ post ++ tail) =
      if bits.foldl (fun n d => 2 * n + d.toNat) 0 < 256
      then .byte (BitVec.ofNat 8 (bits.foldl (fun n d => 2 * n + d.toNat) 0)) else .malformed :=
    parseLine_of_some (tokenOf_surround hpre hpost (fun _ => isBlank_of_mem_digits) (commentMarker_not_mem_digits bits) ht)
      (by simpa using h) (binaryValue_digits 0 bits)
  refine ⟨fun v => ?_, hdigits, fun line hm hbad => ?_, ?_⟩
  · have hline := hdigits ((List.range 8).map fun k => v.getLsbD (7 - k)) (by simp)
    rwa [foldl_getLsbD, if_pos v.isLt, BitVec.ofNat_toNat, BitVec.setWidth_eq, digits, List.map_map] at hline
  · obtain ⟨c, hc, hb, h0, h1⟩ := hbad
    have hmem : c ∈ stripBlanks line := mem_stripBlanks hc hb
    exact parseLine_of_none (tokenOf_append_comment hm ht) (List.ne_nil_of_mem hmem) (binaryValue_of_mem hmem h0 h1)
  · have htoken := tokenOf_surround (token := []) (post := []) hpre rfl (by simp) (by simp) ht
    rw [List.append_nil, List.append_nil] at htoken
    exact parseLine_of_nil htoken

end Sys2Proof.Machine
end

section
/-! SUPPORT. The image of the loader's lines, and the acts it makes (30_encoding.md R94, 70_reset_and_hazards.md R272, R273). -/

namespace Sys2Proof.Machine

/-! ### The image -/

section
variable {l : List Char} (ls : List (List Char))

theorem parseImage_cons_blank (h : parseLine l = .blank) : parseImage (l :: ls) = parseImage ls := by
  rw [parseImage, h]

theorem parseImage_cons_byte {v : Byte} (h : parseLine l = .byte v) :
    parseImage (l :: ls) = (parseImage ls).map (fun image => v :: image) := by
  rw [parseImage, h]

theorem parseImage_cons_malformed (h : parseLine l = .malformed) : parseImage (l :: ls) = none := by
  rw [parseImage, h]

end

theorem parseImage_eq_none_iff {lines : List (List Char)} :
    parseImage lines = none ↔ ∃ l ∈ lines, parseLine l = .malformed := by
  induction lines with
  | nil => simp [parseImage]
  | cons l ls ih =>
    cases h : parseLine l with
    | blank => simp [parseImage_cons_blank ls h, ih, h]
    | byte v => simp [parseImage_cons_byte ls h, ih, h]
    | malformed => simp [parseImage_cons_malformed ls h, h]

theorem map_byte_of_parseImage {lines : List (List Char)} {image : List Byte} (h : parseImage lines = some image) :
    image.map LoaderLine.byte = (lines.map parseLine).filter (fun r => r ≠ .blank) := by
  induction lines generalizing image with
  | nil => cases h; rfl
  | cons l ls ih =>
    cases hl : parseLine l with
    | blank =>
      rw [parseImage_cons_blank ls hl] at h
      simp [hl, ih h]
    | byte v =>
      rw [parseImage_cons_byte ls hl] at h
      obtain ⟨image', himage, rfl⟩ := Option.map_eq_some_iff.mp h
      simp [hl, ih himage]
    | malformed =>
      rw [parseImage_cons_malformed ls hl] at h
      cases h

/-! ### The loader's acts -/

section
variable {lines : List (List Char)} {image : List Byte}

theorem loaderEvents_of_none (h : parseImage lines = none) : loaderEvents lines = [] := by rw [loaderEvents, h]

theorem loaderEvents_of_fits (h : parseImage lines = some image) (hfits : image.length ≤ memSize) :
    loaderEvents lines = bootEvents image := by
  simp [loaderEvents, h, imageFits, hfits]

theorem loaderEvents_of_overlong (h : parseImage lines = some image) (hlong : memSize < image.length) :
    loaderEvents lines = loadEvents image := by
  simp [loaderEvents, h, imageFits, Nat.not_le.mpr hlong]

theorem start_mem_loaderEvents_iff (h : parseImage lines = some image) :
    .start ∈ loaderEvents lines ↔ image.length ≤ memSize := by
  by_cases hfits : image.length ≤ memSize
  · simp [loaderEvents_of_fits h hfits, bootEvents, hfits]
  · rw [loaderEvents_of_overlong h (Nat.not_le.mp hfits)]
    exact iff_of_false (start_not_mem_loadEventsFrom 0 image) hfits

end

/-- Settles O59: there is no image exactly if a line is malformed, and an image is the lines' bytes. -/
theorem loaderImageIsTheBytesInOrder : Obligations.LoaderImageIsTheBytesInOrder := by
  constructor
  · intro lines hbad
    have hnone := parseImage_eq_none_iff.mpr hbad
    exact ⟨hnone, loaderEvents_of_none hnone⟩
  · intro lines hgood
    cases h : parseImage lines with
    | none =>
      obtain ⟨l, hl, hbad⟩ := parseImage_eq_none_iff.mp h
      exact absurd hbad (hgood l hl)
    | some image => exact ⟨image, rfl, map_byte_of_parseImage h, start_mem_loaderEvents_iff h⟩

end Sys2Proof.Machine
end

section
/-! SUPPORT. The boot of an image (70_reset_and_hazards.md R272, R273; log entries 5, 9, 10 and 12): the loader's writes leave
the image in memory, the start runs it, and after a failed write nothing starts. -/

namespace Sys2Proof.Machine

/-! ### Memory with an image in it -/

/-- The memory after the writes of an image from an address on. -/
def Memory.writeImage : Memory → Nat → List Byte → Memory
  | m, _, [] => m
  | m, addr, v :: image => Memory.writeImage (m.write addr v) (addr + 1) image

theorem Memory.wf_writeImage {m : Memory} {addr : Nat} {image : List Byte} (hm : m.wf = true)
    (h : addr + image.length ≤ memSize) : (m.writeImage addr image).wf = true := by
  induction image generalizing m addr with
  | nil => exact hm
  | cons v image ih =>
    rw [List.length_cons] at h
    exact ih (Memory.wf_write v hm (by omega)) (by omega)

/-- The image stands from its address on, and every other cell is as before. -/
theorem Memory.read_writeImage {m : Memory} {addr : Nat} {image : List Byte} (hm : m.wf = true)
    (h : addr + image.length ≤ memSize) (k : Nat) :
    (m.writeImage addr image).read k = if k < addr then m.read k else image.getD (k - addr) (m.read k) := by
  induction image generalizing m addr with
  | nil => simp [Memory.writeImage]
  | cons v image ih =>
    rw [List.length_cons] at h
    rw [Memory.writeImage, ih (Memory.wf_write v hm (by omega)) (by omega)]
    rcases Nat.lt_trichotomy k addr with hlt | rfl | hgt
    · rw [if_pos (by omega), if_pos hlt, Memory.read_write_other m v (by omega)]
    · rw [if_pos (by omega), if_neg (by omega), Memory.read_write_same v hm, Nat.sub_self, List.getD_cons_zero]
    · rw [if_neg (by omega), if_neg (by omega), Memory.read_write_other m v (by omega),
        show k - addr = k - (addr + 1) + 1 by omega, List.getD_cons_succ]

/-! ### Runs in IDLE -/

section
variable {s : State}

/-- With no act of the host to come, IDLE holds every state. -/
theorem runSteps_of_idle_quiet (hc : s.ctrl = .idle) (h : s.inputs = []) (k : Nat) : runSteps k s = .next s := by
  have hq : s.input = .quiet := by rw [State.input, h]; rfl
  have hs : step s = .next s := by
    have hin : s.afterInput = s := by rw [State.afterInput, h]; cases s; cases h; rfl
    rw [step_of_idle (by rw [hq]; nofun) hc, hq, hin]
    rfl
  induction k with
  | zero => rfl
  | succ k ih => rw [runSteps_of_next hs, ih]

/-- The writes of an image that fits, one a step. -/
theorem runSteps_loadEventsFrom (hc : s.ctrl = .idle) {addr : Nat} {image : List Byte}
    (h : addr + image.length ≤ memSize) (rest : List HostInput) :
    runSteps image.length { s with inputs := loadEventsFrom addr image ++ rest }
      = .next { s with mem := s.mem.writeImage addr image, inputs := rest } := by
  induction image generalizing s addr with
  | nil => rfl
  | cons v image ih =>
    rw [List.length_cons] at h ⊢
    have hlt : addr < memSize := by omega
    have haddr : (BitVec.ofNat 8 addr).toNat = addr := by
      rw [BitVec.toNat_ofNat, Nat.mod_eq_of_lt]
      simp only [memSize] at hlt
      omega
    have hs := step_of_idle_cons (s := { s with inputs := loadEventsFrom addr (v :: image) ++ rest })
      (congrArg (· ++ rest) (loadEventsFrom_cons_of_lt v image hlt)) nofun hc
    rw [idleStep_load_of_lt (haddr.symm ▸ hlt), haddr] at hs
    rw [runSteps_of_next hs]
    exact ih (s := { s with mem := s.mem.write addr v }) hc (by omega)

/-- The write at `MEM_SIZE` fails. -/
theorem step_load_memSize (hc : s.ctrl = .idle) (v : Byte) (rest : List HostInput) :
    step { s with inputs := .load (BitVec.ofNat 8 memSize) v :: rest }
      = .next { s with loadErr := true, inputs := rest } := by
  have hs := step_of_idle_cons (s := { s with inputs := .load (BitVec.ofNat 8 memSize) v :: rest }) rfl nofun hc
  exact hs.trans (congrArg _ (idleStep_load_of_le (by simp [memSize])))

theorem step_start_of_loadErr (hc : s.ctrl = .idle) (hl : s.loadErr = true) (rest : List HostInput) :
    step { s with inputs := .start :: rest } = .next { s with inputs := rest } := by
  have hs := step_of_idle_cons (s := { s with inputs := .start :: rest }) rfl nofun hc
  exact hs.trans (congrArg _ (idleStep_start_of_loadErr (s := { s with inputs := rest }) hl))

theorem loadEventsFrom_append {addr : Nat} {image : List Byte} (image' : List Byte) (h : addr + image.length ≤ memSize) :
    loadEventsFrom addr (image ++ image') = loadEventsFrom addr image ++ loadEventsFrom (addr + image.length) image' := by
  induction image generalizing addr with
  | nil => rfl
  | cons v image ih =>
    rw [List.length_cons] at h ⊢
    have hlt : addr < memSize := by omega
    rw [List.cons_append, loadEventsFrom_cons_of_lt _ _ hlt, loadEventsFrom_cons_of_lt _ _ hlt, ih (by omega),
      Nat.add_right_comm, List.cons_append, Nat.add_assoc]

end

/-! ### From reset -/

/-- The image in the memory that reset leaves. -/
def bootMemory (image : List Byte) : Memory := Memory.writeImage [] 0 image

section
variable {image : List Byte} (p : Params)

theorem wf_bootMemory (h : image.length ≤ memSize) : (bootMemory image).wf = true :=
  Memory.wf_writeImage rfl (by omega)

theorem read_bootMemory (h : image.length ≤ memSize) (k : Nat) : (bootMemory image).read k = image.getD k 0 := by
  rw [bootMemory, Memory.read_writeImage rfl (by omega), if_neg (Nat.not_lt_zero k), Nat.sub_zero, Memory.read_nil]

theorem runSteps_loadEvents (h : image.length ≤ memSize) (rest : List HostInput) :
    runSteps image.length { State.resetWith p with inputs := loadEvents image ++ rest }
      = .next { State.resetWith p with mem := bootMemory image, inputs := rest } :=
  runSteps_loadEventsFrom (s := State.resetWith p) rfl (by omega) rest

theorem runSteps_bootEvents (h : image.length ≤ memSize) :
    runSteps (image.length + 1) { State.resetWith p with inputs := bootEvents image }
      = .next { State.resetWith p with mem := bootMemory image, ctrl := .running } := by
  rw [bootEvents, runSteps_add 1 (runSteps_loadEvents p h [.start])]
  rfl

/-- Of an image that does not fit, the loader writes the part that does, and then makes the write that fails. -/
theorem loadEvents_of_overlong (h : memSize < image.length) :
    ∃ v, loadEvents image = loadEvents (image.take memSize) ++ [.load (BitVec.ofNat 8 memSize) v] := by
  have htake : (image.take memSize).length = memSize := List.length_take_of_le h.le
  refine ⟨image[memSize], ?_⟩
  conv_lhs => rw [← List.take_append_drop memSize image, List.drop_eq_getElem_cons h]
  rw [loadEvents, loadEventsFrom_append _ (by omega), htake, Nat.zero_add, loadEventsFrom_cons_of_le _ _ le_rfl, loadEvents]

theorem runSteps_overlong (h : memSize < image.length) (rest : List HostInput) :
    runSteps (memSize + 1) { State.resetWith p with inputs := loadEvents image ++ rest }
      = .next { State.resetWith p with mem := bootMemory (image.take memSize), loadErr := true, inputs := rest } := by
  obtain ⟨v, hv⟩ := loadEvents_of_overlong h
  have htake : (image.take memSize).length = memSize := List.length_take_of_le h.le
  have hload := runSteps_loadEvents p htake.le (.load (BitVec.ofNat 8 memSize) v :: rest)
  rw [htake] at hload
  rw [hv, List.append_assoc, List.singleton_append, runSteps_add 1 hload]
  exact runSteps_of_next
    (step_load_memSize (s := { State.resetWith p with mem := bootMemory (image.take memSize) }) rfl v rest)

end

/-! ### The rules -/

/-- Settles O53: the loader's acts are the boot of the image, or none. -/
theorem bootRunsLoadedImage : Obligations.BootRunsLoadedImage := by
  constructor
  · intro p lines image himage (hfits : image.length ≤ memSize)
    rw [loaderEvents_of_fits himage hfits]
    exact ⟨_, runSteps_bootEvents p hfits, rfl, rfl, rfl, wf_bootMemory hfits, read_bootMemory hfits, rfl⟩
  · intro p lines k hnone
    rw [loaderEvents_of_none hnone]
    exact runSteps_of_idle_quiet (s := State.resetWith p) rfl rfl k

/-- Settles O54: after the write that fails, a start is ignored and IDLE holds. -/
theorem overlongImageNeverStarts : Obligations.OverlongImageNeverStarts := by
  intro p image (hlong : memSize < image.length)
  have htake : (image.take memSize).length = memSize := List.length_take_of_le hlong.le
  refine ⟨bootMemory (image.take memSize), wf_bootMemory htake.le, fun k => ?_, fun k => ?_, fun lines himage k => ?_⟩
  · rw [read_bootMemory htake.le, List.getD_eq_getElem?_getD, List.getElem?_take, apply_ite (Option.getD · 0),
      List.getD_eq_getElem?_getD]
    rfl
  · have hfail := runSteps_overlong p hlong [.start]
    have hstart := runSteps_of_next (k := k) (step_start_of_loadErr (s := { State.resetWith p with
      mem := bootMemory (image.take memSize), loadErr := true }) rfl rfl [])
    rw [bootEvents, show 257 + k = memSize + 1 + (k + 1) by simp only [memSize]; omega, runSteps_add (k + 1) hfail, hstart]
    exact runSteps_of_idle_quiet rfl rfl k
  · have hfail := runSteps_overlong p hlong []
    rw [List.append_nil] at hfail
    rw [loaderEvents_of_overlong himage hlong, show 256 + k = memSize + 1 + k from rfl, runSteps_add k hfail]
    exact runSteps_of_idle_quiet rfl rfl k

end Sys2Proof.Machine
end
